-- ==== Sys2Proof/Word.lean ====
section
/-! DEFINITION. The two word types of the block (00_scope.md R5, R9): a 32-bit host data word and a byte. -/

namespace Sys2Proof

/-- A 32-bit host data word; bit 0 is the least significant bit (R9). -/
abbrev Word := BitVec 32

/-- A byte; bit 7 is the most significant bit (R9). -/
abbrev Byte := BitVec 8

/-- The byte offset of a transaction (R6, R51). Its bits [7:2] select the register slot. -/
abbrev Offset := BitVec 8

end Sys2Proof
end

