-- ==== Sys2Proof/Syntax.lean ====
section
/-! DEFINITION. The commands of 30_encoding.md R75 (one constructor per row of spec/opcode_table.json) and the host's
transactions of 00_scope.md R6. -/

namespace Sys2Proof

/-- The nine commands (R75). The operand of CRC_FEED, PARSE_FEED and SER_STEP is the byte IMM8 (R72). -/
inductive Instr where
  /-- NOP (R166). -/
  | nop
  /-- CRC_INIT (R104). -/
  | crcInit
  /-- CRC_FEED b (R105). -/
  | crcFeed (b : Byte)
  /-- PARSE_BEGIN (R121). -/
  | parseBegin
  /-- PARSE_FEED b (R122). -/
  | parseFeed (b : Byte)
  /-- PARSE_END (R125). -/
  | parseEnd
  /-- SER_BEGIN (R141). -/
  | serBegin
  /-- SER_STEP d (R142). -/
  | serStep (d : Byte)
  /-- ABORT (R167). -/
  | abort
  deriving DecidableEq, Repr

/-- What the host does to the block, each one atomic step (R6). -/
inductive Transaction where
  /-- The Reset transaction (R200). -/
  | reset
  /-- Write(off, v) (R161 to R165). -/
  | write (off : Offset) (v : Word)
  /-- Read(off) (R160). -/
  | read (off : Offset)
  deriving DecidableEq, Repr

/-- The registers the host reaches, by name (R36). -/
inductive Reg where
  /-- CMD, offset 0x00, write-only. -/
  | cmd
  /-- STATUS, offset 0x04, read-only. -/
  | status
  /-- LENGTH, offset 0x08, written in IDLE. -/
  | length
  /-- TYPE, offset 0x0C, written in IDLE. -/
  | chunkType
  /-- TYPE_FLAGS, offset 0x10, read-only. -/
  | typeFlags
  /-- CRC_EXPECT, offset 0x14, written in IDLE. -/
  | crcExpect
  /-- CRC_VALUE, offset 0x18, read-only. -/
  | crcValue
  /-- CRC_RAW, offset 0x1C, read-only. -/
  | crcRaw
  /-- COUNT, offset 0x20, read-only. -/
  | count
  /-- OUT_BYTE, offset 0x24, read-only. -/
  | outByte
  /-- ID, offset 0x28, read-only. -/
  | id
  /-- A reserved slot, offsets 0x2C to 0xFC: reads 0, writes ignored. -/
  | reserved
  deriving DecidableEq, Repr

end Sys2Proof
end

