-- ==== Sys2Proof/WellFormed.lean ====
section
/-! DEFINITION. What is well formed: a command word (30_encoding.md R76) and a transaction (20_memory.md R51). Every term
of `Instr` is well formed, because its one operand is a byte by type (R72), so the checks are on raw words and offsets.
The decoder does not use these checks: Decode.lean reads the fields itself, and an obligation says the two agree. -/

namespace Sys2Proof

/-- R73: RSV1, `w[31:16]`, must be 0. -/
def rsv1Clear (w : Word) : Bool := w.extractLsb' 16 16 == 0#16

/-- R73: RSV0, `w[7:4]`, must be 0. -/
def rsv0Clear (w : Word) : Bool := w.extractLsb' 4 4 == 0#4

/-- R77: OP values 0x9 to 0xF are reserved. -/
def opAssigned (w : Word) : Bool := decide (w.extractLsb' 0 4 ≤ 8#4)

/-- R74: IMM8 must be 0 unless OP is 2, 4 or 7. -/
def operandAllowed (w : Word) : Bool :=
  (w.extractLsb' 0 4 == 2#4 || w.extractLsb' 0 4 == 4#4 || w.extractLsb' 0 4 == 7#4) || w.extractLsb' 8 8 == 0#8

/-- R76: a word is a legal command when all four checks hold. -/
def legalWord (w : Word) : Bool := rsv1Clear w && rsv0Clear w && opAssigned w && operandAllowed w

/-- R51: a host writes offsets that are multiples of 4. The port has no offset bits [1:0], so an offset that fails this
check still selects the slot of its bits [7:2] and nothing in the machine depends on the check. -/
def Transaction.aligned : Transaction → Bool
  | .reset => true
  | .write off _ => off.extractLsb' 0 2 == 0#2
  | .read off => off.extractLsb' 0 2 == 0#2

end Sys2Proof
end

