-- ==== Sys2Proof/Decode.lean ====
section
/-! DEFINITION. From a command word to a command and back (30_encoding.md R70 to R77). A command word reaches the block
whole, as one 32-bit word, so there is no byte layout to decode (20_memory.md R53). -/

namespace Sys2Proof

/-- Why a word written to CMD is illegal (R76). The block reports each of them as ERR = ILLEGAL and tells them apart in
no register; where several hold of one word, the first in this order is named. -/
inductive IllegalWord where
  /-- A bit of RSV1, `w[31:16]`, is set (R73). -/
  | rsv1Set
  /-- A bit of RSV0, `w[7:4]`, is set (R73). -/
  | rsv0Set
  /-- OP is one of 0x9 to 0xF (R77). -/
  | reservedOp
  /-- IMM8 is not 0 in a command without an operand (R74). -/
  | operandNotZero
  deriving DecidableEq, Repr

/-- OP (R71). -/
def opField (w : Word) : BitVec 4 := w.extractLsb' 0 4

/-- RSV0 (R73). -/
def rsv0Field (w : Word) : BitVec 4 := w.extractLsb' 4 4

/-- IMM8 (R72). -/
def imm8Field (w : Word) : Byte := w.extractLsb' 8 8

/-- RSV1 (R73). -/
def rsv1Field (w : Word) : BitVec 16 := w.extractLsb' 16 16

/-- A command without an operand requires IMM8 = 0 (R74). -/
def withoutOperand (i : Instr) (imm : Byte) : Except IllegalWord Instr :=
  if imm = 0#8 then .ok i else .error .operandNotZero

/-- The opcode map of R75, OP by OP. -/
def decodeOp (op : BitVec 4) (imm : Byte) : Except IllegalWord Instr :=
  if op = 0x0#4 then withoutOperand .nop imm
  else if op = 0x1#4 then withoutOperand .crcInit imm
  else if op = 0x2#4 then .ok (.crcFeed imm)
  else if op = 0x3#4 then withoutOperand .parseBegin imm
  else if op = 0x4#4 then .ok (.parseFeed imm)
  else if op = 0x5#4 then withoutOperand .parseEnd imm
  else if op = 0x6#4 then withoutOperand .serBegin imm
  else if op = 0x7#4 then .ok (.serStep imm)
  else if op = 0x8#4 then withoutOperand .abort imm
  else .error .reservedOp

/-- The command a word stands for, or why it is illegal (R76). It depends on the word alone (R79). -/
def decode (w : Word) : Except IllegalWord Instr :=
  if rsv1Field w ≠ 0#16 then .error .rsv1Set
  else if rsv0Field w ≠ 0#4 then .error .rsv0Set
  else decodeOp (opField w) (imm8Field w)

/-- The OP value of a command (R75). -/
def Instr.op : Instr → BitVec 4
  | .nop => 0x0#4
  | .crcInit => 0x1#4
  | .crcFeed _ => 0x2#4
  | .parseBegin => 0x3#4
  | .parseFeed _ => 0x4#4
  | .parseEnd => 0x5#4
  | .serBegin => 0x6#4
  | .serStep _ => 0x7#4
  | .abort => 0x8#4

/-- The IMM8 field of a command: its operand, or 0 where it has none (R72, R74). -/
def Instr.imm8 : Instr → Byte
  | .nop => 0#8
  | .crcInit => 0#8
  | .crcFeed b => b
  | .parseBegin => 0#8
  | .parseFeed b => b
  | .parseEnd => 0#8
  | .serBegin => 0#8
  | .serStep d => d
  | .abort => 0#8

/-- The pattern of R70, `0000000000000000 iiiiiiii 0000 oooo`, most significant bit first. -/
def packWord (op : BitVec 4) (imm : Byte) : Word := 0#16 ++ imm ++ 0#4 ++ op

/-- The command word of a command (R70, R75). -/
def encode (i : Instr) : Word := packWord i.op i.imm8

/-- One row of the opcode table of R75: a word `w` selects the row when `(w AND mask) == pattern`. -/
structure OpcodeRow where
  /-- The row's mnemonic. -/
  mnemonic : String
  /-- The row's match column. -/
  pattern : Word
  /-- The row's mask column. -/
  mask : Word
  deriving DecidableEq, Repr

/-- The word selects the row (R75). -/
def OpcodeRow.selects (r : OpcodeRow) (w : Word) : Bool := w &&& r.mask == r.pattern

/-- The nine rows of R75. The decoder does not read this table; an obligation says the two agree. -/
def opcodeRows : List OpcodeRow :=
  [ ⟨"NOP", 0x00000000#32, 0xFFFFFFFF#32⟩,
    ⟨"CRC_INIT", 0x00000001#32, 0xFFFFFFFF#32⟩,
    ⟨"CRC_FEED", 0x00000002#32, 0xFFFF00FF#32⟩,
    ⟨"PARSE_BEGIN", 0x00000003#32, 0xFFFFFFFF#32⟩,
    ⟨"PARSE_FEED", 0x00000004#32, 0xFFFF00FF#32⟩,
    ⟨"PARSE_END", 0x00000005#32, 0xFFFFFFFF#32⟩,
    ⟨"SER_BEGIN", 0x00000006#32, 0xFFFFFFFF#32⟩,
    ⟨"SER_STEP", 0x00000007#32, 0xFFFF00FF#32⟩,
    ⟨"ABORT", 0x00000008#32, 0xFFFFFFFF#32⟩ ]

/-- The mnemonic of a command as R75 spells it. -/
def Instr.mnemonic : Instr → String
  | .nop => "NOP"
  | .crcInit => "CRC_INIT"
  | .crcFeed _ => "CRC_FEED"
  | .parseBegin => "PARSE_BEGIN"
  | .parseFeed _ => "PARSE_FEED"
  | .parseEnd => "PARSE_END"
  | .serBegin => "SER_BEGIN"
  | .serStep _ => "SER_STEP"
  | .abort => "ABORT"

/-- What the decoder reads from a word given as `nbits` bits of the number `w`, bit 0 the least significant; a command is
one 32-bit word (R79), so a number with a bit above bit 31 is no command. -/
def decodeTableWord (nbits w : Nat) : Option Instr :=
  if w % 2 ^ nbits < 2 ^ 32 then
    match decode (BitVec.ofNat 32 (w % 2 ^ nbits)) with
    | .ok i => some i
    | .error _ => none
  else none

end Sys2Proof
end

