-- ==== Sys2Proof/Config.lean ====
section
/-! DEFINITION. What is fixed for the block: the parameters of 00_scope.md R5, the identity of 10_state.md R33 and the
CRC-32 numbers of 41_crc.md R100, and the model's one free value (notes/assumptions/3.md). -/

namespace Sys2Proof

/-- The constant the ID register reads, ASCII "PNGC" (R33). -/
def Config.idValue : Word := 0x504E4743#32

/-- The CRC-32 generator polynomial in bit-reflected form (R100). -/
def Config.crcPolyReflected : Word := 0xEDB88320#32

/-- The CRC-32 generator polynomial, most significant bit first (R100, R103). -/
def Config.crcPolyNormal : Word := 0x04C11DB7#32

/-- The CRC engine's initial register value (R100). -/
def Config.crcInit : Word := 0xFFFFFFFF#32

/-- The final XOR of CRC-32 (R100). -/
def Config.crcXorOut : Word := 0xFFFFFFFF#32

/-- FREE VALUE. `byte(v, k)` for `k > 3`, which 00_scope.md R10 does not define. Only SER_STEP in a state that no run
reaches (R42 (b)) asks for it, so nothing is assumed of it. DESIGN CHOICE, safe: notes/assumptions/3.md. -/
opaque Config.byteBeyond : Word → Word → Byte

end Sys2Proof
end

