-- ==== Sys2Proof/Machine/State.lean ====
section
/-! DEFINITION. The state record of 10_state.md R20, the host side of the transaction interface (00_scope.md R6, R8), the
reset values of R41 and the reasons a step can stop. -/

namespace Sys2Proof.Machine

/-- STATE (R21). The code 3, which never occurs, has no constructor (93 U6). -/
inductive OpState where
  /-- No frame operation is in progress. -/
  | idle
  /-- A frame is being parsed. -/
  | parse
  /-- A frame is being serialized. -/
  | ser
  deriving DecidableEq, Repr

/-- FIELD: the frame field the next frame byte belongs to (R22). -/
inductive Field where
  /-- LEN, the 4 length bytes. -/
  | len
  /-- TYPE, the 4 type bytes. -/
  | type
  /-- DATA, the LENGTH data bytes. -/
  | data
  /-- CRC, the 4 CRC bytes. -/
  | crc
  deriving DecidableEq, Repr

/-- RESULT: the outcome of the most recent frame operation (R29, R181). The codes 5 to 7 have no constructor (93 U6). -/
inductive Result where
  /-- No frame operation has ended since Reset or the last BEGIN. -/
  | none
  /-- A frame ended well. -/
  | ok
  /-- The stored CRC differs from the computed one. -/
  | crcMismatch
  /-- The input ended before the frame did. -/
  | truncated
  /-- The host cancelled the frame. -/
  | aborted
  deriving DecidableEq, Repr

/-- ERR: the outcome of the most recent write to CMD, LENGTH, TYPE or CRC_EXPECT (R30, R180). The code 3 has no
constructor (93 U6). -/
inductive Err where
  /-- The write was accepted. -/
  | none
  /-- The command word did not decode. -/
  | illegal
  /-- The command or write is not allowed in the current STATE. -/
  | sequence
  deriving DecidableEq, Repr

/-- The machine: the ten fields of R20, then two fields of the model's own for the host side of the interface. -/
structure State where
  /-- STATE, 2 bits (R21). -/
  opState : OpState
  /-- FIELD, 2 bits (R22). -/
  field : Field
  /-- COUNT, 32 bits: bytes of the current FIELD already consumed or produced (R23). -/
  count : Word
  /-- LENGTH, 32 bits (R24). -/
  length : Word
  /-- TYPE, 32 bits: byte 0 of the type in bits [31:24] (R25). -/
  chunkType : Word
  /-- CRC_STATE, 32 bits: the CRC engine's running register, before the final complement (R26). -/
  crcState : Word
  /-- CRC_EXPECT, 32 bits (R27). -/
  crcExpect : Word
  /-- OUT_BYTE, 8 bits (R28). -/
  outByte : Byte
  /-- RESULT, 3 bits (R29). -/
  result : Result
  /-- ERR, 2 bits (R30). -/
  err : Err
  /-- MODEL'S OWN: the host's transactions not yet performed, the next one first (R6, R61; notes/assumptions/1.md). -/
  pending : List Transaction
  /-- MODEL'S OWN: the words returned by the Read transactions so far, oldest first (R8; notes/assumptions/1.md). -/
  reads : List Word
  deriving DecidableEq, Repr

/-- The faults of a step. There is none: "there is no fault, no stuck state and no refusal at the block boundary" (R7), so
the type has no constructor and no step can end in a fault. Safe. -/
inductive Fault where
  deriving DecidableEq, Repr

/-- The refusals of a step. -/
inductive Refusal where
  /-- Raised by `exec` for a command that has no meaning in the model yet; no arm of `exec` raises it. Safe. -/
  | notModelled (mnemonic : String)
  deriving DecidableEq, Repr

/-- The block right after Reset (R41, R200), which power-on performs (R201), with no transaction pending and no word read
yet. -/
def State.reset : State where
  opState := .idle
  field := .len
  count := 0#32
  length := 0#32
  chunkType := 0#32
  crcState := 0xFFFFFFFF#32
  crcExpect := 0#32
  outByte := 0#8
  result := .none
  err := .none
  pending := []
  reads := []

end Sys2Proof.Machine
end

