-- ==== Sys2Proof/Machine/Operands.lean ====
section
/-! DEFINITION. The operand forms: the bytes of a word (00_scope.md R10), a byte shifted into a word (42_parser.md R122),
the offset of a transaction (20_memory.md R51) and the register it names (10_state.md R36). The operand of a command, IMM8,
is taken as it stands (30_encoding.md R72) and needs no operation. -/

namespace Sys2Proof.Machine

/-- `byte(v, k)`, the k-th byte of `v` in big-endian order, `v[31-8k : 24-8k]` for `k` in 0..3 (R10). For a larger `k`,
which R10 does not define and no run asks for, a free value (notes/assumptions/3.md). -/
def byteOf (v k : Word) : Byte :=
  if k = 0#32 then v.extractLsb' 24 8
  else if k = 1#32 then v.extractLsb' 16 8
  else if k = 2#32 then v.extractLsb' 8 8
  else if k = 3#32 then v.extractLsb' 0 8
  else Config.byteBeyond v k

/-- `(v << 8)[31:0] OR zext_32(b)`: the next byte of a big-endian word under assembly (R122). -/
def shiftIn (v : Word) (b : Byte) : Word := (v <<< 8) ||| b.setWidth 32

/-- The slot of a transaction's offset, `off[7:2]`; the port has no offset bits [1:0] (R51). -/
def slotOf (off : Offset) : BitVec 6 := off.extractLsb' 2 6

/-- The register of a slot (R36): offset 4n is slot n. -/
def regOfSlot (n : Nat) : Reg :=
  match n with
  | 0 => .cmd
  | 1 => .status
  | 2 => .length
  | 3 => .chunkType
  | 4 => .typeFlags
  | 5 => .crcExpect
  | 6 => .crcValue
  | 7 => .crcRaw
  | 8 => .count
  | 9 => .outByte
  | 10 => .id
  | _ => .reserved

/-- The register a transaction's offset names (R36, R51). -/
def regAt (off : Offset) : Reg := regOfSlot (slotOf off).toNat

end Sys2Proof.Machine
end

