-- ==== Sys2Proof/Machine/Flags.lean ====
section
/-! DEFINITION. Every derived value and flag: CRC_VALUE and MATCH (10_state.md R31, R32), STATUS (R34) with the codes of
R20, and TYPE_FLAGS (40_chunk_type.md R91 to R97). -/

namespace Sys2Proof.Machine

/-- The code of STATE (R20). -/
def OpState.code : OpState → BitVec 2
  | .idle => 0#2
  | .parse => 1#2
  | .ser => 2#2

/-- The code of FIELD (R20). -/
def Field.code : Field → BitVec 2
  | .len => 0#2
  | .type => 1#2
  | .data => 2#2
  | .crc => 3#2

/-- The code of RESULT (R20, R181). -/
def Result.code : Result → BitVec 3
  | .none => 0#3
  | .ok => 1#3
  | .crcMismatch => 2#3
  | .truncated => 3#3
  | .aborted => 4#3

/-- The code of ERR (R20, R180). -/
def Err.code : Err → BitVec 2
  | .none => 0#2
  | .illegal => 1#2
  | .sequence => 2#2

/-- CRC_VALUE, the complemented CRC register (R31). -/
def State.crcValue (s : State) : Word := s.crcState ^^^ Config.crcXorOut

/-- MATCH: CRC_VALUE equals CRC_EXPECT in the current state (R32). -/
def State.isMatch (s : State) : Bool := s.crcValue == s.crcExpect

/-- The STATUS register, `(ERR << 12) | (RESULT << 8) | (MATCH << 4) | (FIELD << 2) | STATE` (R34). -/
def State.status (s : State) : Word :=
  (s.err.code.setWidth 32 <<< 12) ||| (s.result.code.setWidth 32 <<< 8)
    ||| ((BitVec.ofBool s.isMatch).setWidth 32 <<< 4)
    ||| (s.field.code.setWidth 32 <<< 2) ||| s.opState.code.setWidth 32

/-- An ASCII letter, A to Z or a to z (R96). -/
def isLetter (b : Byte) : Bool := (0x41#8 ≤ b && b ≤ 0x5A#8) || (0x61#8 ≤ b && b ≤ 0x7A#8)

/-- ANCILLARY, bit 5 of type byte 0 (R92). -/
def ancillary (t : Word) : Bool := t.getLsbD 29

/-- PRIVATE, bit 5 of type byte 1 (R93). -/
def isPrivate (t : Word) : Bool := t.getLsbD 21

/-- RESERVED, bit 5 of type byte 2 (R94). -/
def reservedBit (t : Word) : Bool := t.getLsbD 13

/-- SAFE_TO_COPY, bit 5 of type byte 3 (R95). -/
def safeToCopy (t : Word) : Bool := t.getLsbD 5

/-- ALPHA: all four type bytes are ASCII letters (R96). -/
def alpha (t : Word) : Bool :=
  isLetter (byteOf t 0#32) && isLetter (byteOf t 1#32) && isLetter (byteOf t 2#32) && isLetter (byteOf t 3#32)

/-- VALID: ALPHA and not RESERVED (R97). -/
def validType (t : Word) : Bool := alpha t && !reservedBit t

/-- The TYPE_FLAGS register,
`(VALID<<5) | (ALPHA<<4) | (TYPE[5]<<3) | (TYPE[13]<<2) | (TYPE[21]<<1) | TYPE[29]` (R91). -/
def typeFlags (t : Word) : Word :=
  ((BitVec.ofBool (validType t)).setWidth 32 <<< 5) ||| ((BitVec.ofBool (alpha t)).setWidth 32 <<< 4)
    ||| ((BitVec.ofBool (safeToCopy t)).setWidth 32 <<< 3) ||| ((BitVec.ofBool (reservedBit t)).setWidth 32 <<< 2)
    ||| ((BitVec.ofBool (isPrivate t)).setWidth 32 <<< 1) ||| (BitVec.ofBool (ancillary t)).setWidth 32

end Sys2Proof.Machine
end

