-- ==== Sys2Proof/Machine/Ops.lean ====
section
/-! DEFINITION. The named operations the meanings share: the CRC engine (41_crc.md R101, R102, R103), acceptance of a
command or write and the recording of its error (44_control.md R162, R168; 60_exceptions.md R180), the opening, the walk
and the end of a frame (42_parser.md R121 to R125, 43_serializer.md R141 to R143), reset and the host's reads.

The block takes no trap and has no trap return (60_exceptions.md R183): nothing is saved, no mode changes, control goes
nowhere. What stands for taking an exception is the recording of an error code in STATUS, `setErr`. -/

namespace Sys2Proof.Machine

/-! ### The CRC engine -/

/-- One bit of the CRC update (R101). -/
def crcBit (c : Word) : Word := if c.getLsbD 0 then (c >>> 1) ^^^ Config.crcPolyReflected else c >>> 1

/-- `n` bits of the CRC update (R101). -/
def crcBits : Nat → Word → Word
  | 0, c => c
  | n + 1, c => crcBits n (crcBit c)

/-- `crc_byte(c, b)`, the engine's update for one byte (R101). -/
def crcByte (c : Word) (b : Byte) : Word := crcBits 8 (c ^^^ b.setWidth 32)

/-- `crc_raw(m)`, the raw register after the bytes of `m` (R102). -/
def crcRaw (m : List Byte) : Word := m.foldl crcByte Config.crcInit

/-- `CRC32(m)` (R102). -/
def crc32 (m : List Byte) : Word := crcRaw m ^^^ Config.crcXorOut

/-- One bit of the MSB-first restatement: the shift register takes the input bit at its top end (R103). -/
def crcMsbBit (c : Word) (inBit : Bool) : Word :=
  if c.getMsbD 0 ^^ inBit then (c <<< 1) ^^^ Config.crcPolyNormal else c <<< 1

/-- A byte fed to the MSB-first register, most significant bit first (R103). -/
def crcMsbByte (c : Word) (b : Byte) : Word :=
  [7, 6, 5, 4, 3, 2, 1, 0].foldl (fun c i => crcMsbBit c (b.getLsbD i)) c

/-- The remainder of the MSB-first register, preset to 0xFFFFFFFF, over the bit-reversed bytes of `m` (R103). -/
def crcMsbRemainder (m : List Byte) : Word := m.foldl (fun c b => crcMsbByte c b.reverse) Config.crcInit

/-! ### Accepting, and recording an error -/

/-- `set_err(e)`: ERR takes the code and nothing else changes (R10, R180). -/
def setErr (e : Err) (s : State) : State := { s with err := e }

/-- A command or write that is accepted in the given values of STATE: there it has its effect and ERR becomes NONE; in
any other STATE it sets ERR to SEQUENCE and changes nothing else (R162, R168). -/
def acceptIn (states : List OpState) (effect : State → State) (s : State) : Host.Outcome State Fault Refusal :=
  if s.opState ∈ states then .next (setErr .none (effect s)) else .next (setErr .sequence s)

/-! ### Frames -/

/-- `CRC_STATE <- crc_byte(CRC_STATE, b)` (R105, R122, R142). -/
def feedCrc (b : Byte) (s : State) : State := { s with crcState := crcByte s.crcState b }

/-- What PARSE_BEGIN and SER_BEGIN have in common: the frame operation is entered at the first length byte, with the
engine initialised, OUT_BYTE cleared and RESULT at NONE (R121, R141). -/
def beginFrame (m : OpState) (s : State) : State :=
  { s with
    opState := m
    field := .len
    count := 0#32
    crcState := Config.crcInit
    outByte := 0#8
    result := .none }

/-- Where the byte after this one belongs: the walk of FIELD and COUNT through a frame, DATA skipped when LENGTH = 0
(R120, R122, R142). After the last CRC byte it is back at LEN, 0 (R123, R143). -/
def nextPosition (f : Field) (count len : Word) : Field × Word :=
  match f with
  | .len => if count = 3#32 then (.type, 0#32) else (.len, count + 1#32)
  | .type => if count = 3#32 then (if len = 0#32 then .crc else .data, 0#32) else (.type, count + 1#32)
  | .data => if count = len - 1#32 then (.crc, 0#32) else (.data, count + 1#32)
  | .crc => if count = 3#32 then (.len, 0#32) else (.crc, count + 1#32)

/-- FIELD and COUNT move past one frame byte (R122, R142). -/
def advance (s : State) : State :=
  { s with
    field := (nextPosition s.field s.count s.length).1
    count := (nextPosition s.field s.count s.length).2 }

/-- A frame operation ends with an outcome: STATE is IDLE and RESULT is recorded; every other register keeps its value
(R123, R125, R143, R167). -/
def endFrame (r : Result) (s : State) : State := { s with opState := .idle, result := r }

/-- The verdict on a stored CRC `e` against the computed one (R123). -/
def verdict (e crcState : Word) : Result := if e = crcState ^^^ Config.crcXorOut then .ok else .crcMismatch

/-! ### The host's side -/

/-- Reset: every field of the state record at its reset value (R41, R200). What the host has still to do and what it has
already read are not the block's state and stay. -/
def resetBlock (s : State) : State := { State.reset with pending := s.pending, reads := s.reads }

/-- The word the Read in progress returns joins the words read so far (R8). -/
def recordRead (v : Word) (s : State) : State := { s with reads := s.reads ++ [v] }

/-- The value read from a register, computed on the current state (R36, R160). -/
def readReg (r : Reg) (s : State) : Word :=
  match r with
  | .cmd => 0#32
  | .status => s.status
  | .length => s.length
  | .chunkType => s.chunkType
  | .typeFlags => typeFlags s.chunkType
  | .crcExpect => s.crcExpect
  | .crcValue => s.crcValue
  | .crcRaw => s.crcState
  | .count => s.count
  | .outByte => s.outByte.setWidth 32
  | .id => Config.idValue
  | .reserved => 0#32

end Sys2Proof.Machine
end

