-- ==== Sys2Proof/Machine/Control.lean ====
section
/-! DEFINITION. The meanings of NOP and ABORT (44_control.md R166, R167). -/

namespace Sys2Proof.Machine

/-- NOP: accepted in every STATE; ERR becomes NONE and nothing else changes (R166). -/
def execNop (s : State) : Host.Outcome State Fault Refusal :=
  acceptIn [.idle, .parse, .ser] (fun s => s) s

/-- The effect of ABORT, ERR apart: a frame in progress ends as ABORTED; in IDLE nothing changes (R167). -/
def abortFrame (s : State) : State :=
  match s.opState with
  | .idle => s
  | .parse => endFrame .aborted s
  | .ser => endFrame .aborted s

/-- ABORT: accepted in every STATE (R167). -/
def execAbort (s : State) : Host.Outcome State Fault Refusal :=
  acceptIn [.idle, .parse, .ser] abortFrame s

end Sys2Proof.Machine
end

