-- ==== Sys2Proof/Machine/Crc.lean ====
section
/-! DEFINITION. The meanings of CRC_INIT and CRC_FEED (41_crc.md R104, R105). -/

namespace Sys2Proof.Machine

/-- CRC_INIT: CRC_STATE takes the initial value (R104). -/
def execCrcInit (s : State) : Host.Outcome State Fault Refusal :=
  acceptIn [.idle] (fun s => { s with crcState := Config.crcInit }) s

/-- CRC_FEED b: the engine takes one byte (R105). -/
def execCrcFeed (b : Byte) (s : State) : Host.Outcome State Fault Refusal :=
  acceptIn [.idle] (feedCrc b) s

end Sys2Proof.Machine
end

