-- ==== Sys2Proof/Machine/Parser.lean ====
section
/-! DEFINITION. The meanings of PARSE_BEGIN, PARSE_FEED and PARSE_END (42_parser.md R121 to R125). -/

namespace Sys2Proof.Machine

/-- `complete(e)`: the fourth CRC byte has come in and `e` is the stored CRC; the verdict is recorded and the parser is
back at LEN, 0 in IDLE (R123). -/
def completeParse (e : Word) (s : State) : State :=
  endFrame (verdict e s.crcState) { s with field := .len, count := 0#32 }

/-- The effect of an accepted PARSE_FEED, field by field (R122), ERR apart. -/
def parseByte (b : Byte) (s : State) : State :=
  match s.field with
  | .len => advance { s with outByte := b, length := shiftIn s.length b }
  | .type => advance (feedCrc b { s with outByte := b, chunkType := shiftIn s.chunkType b })
  | .data => advance (feedCrc b { s with outByte := b })
  | .crc =>
    let e := shiftIn s.crcExpect b
    if s.count = 3#32 then completeParse e { s with outByte := b, crcExpect := e }
    else advance { s with outByte := b, crcExpect := e }

/-- PARSE_BEGIN: a parse is opened, with LENGTH, TYPE and CRC_EXPECT cleared (R121). -/
def execParseBegin (s : State) : Host.Outcome State Fault Refusal :=
  acceptIn [.idle]
    (fun s => beginFrame .parse { s with length := 0#32, chunkType := 0#32, crcExpect := 0#32 }) s

/-- PARSE_FEED b: one byte of the frame is consumed (R122). -/
def execParseFeed (b : Byte) (s : State) : Host.Outcome State Fault Refusal :=
  acceptIn [.parse] (parseByte b) s

/-- PARSE_END: the input has ended before the frame did (R125). -/
def execParseEnd (s : State) : Host.Outcome State Fault Refusal :=
  acceptIn [.parse] (endFrame .truncated) s

end Sys2Proof.Machine
end

