-- ==== Sys2Proof/Machine/Serializer.lean ====
section
/-! DEFINITION. The meanings of SER_BEGIN and SER_STEP (43_serializer.md R141 to R144). -/

namespace Sys2Proof.Machine

/-- The effect of an accepted SER_STEP, field by field (R142), ERR apart. The operand is read only in DATA (R144). -/
def serializeByte (d : Byte) (s : State) : State :=
  match s.field with
  | .len => advance { s with outByte := byteOf s.length s.count }
  | .type => advance (feedCrc (byteOf s.chunkType s.count) { s with outByte := byteOf s.chunkType s.count })
  | .data => advance (feedCrc d { s with outByte := d })
  | .crc =>
    let t := { s with outByte := byteOf s.crcValue s.count }
    if s.count = 3#32 then endFrame .ok { t with field := .len, count := 0#32 } else advance t

/-- SER_BEGIN: a serialization is opened; LENGTH, TYPE and CRC_EXPECT keep their values (R141). -/
def execSerBegin (s : State) : Host.Outcome State Fault Refusal :=
  acceptIn [.idle] (beginFrame .ser) s

/-- SER_STEP d: one byte of the frame is produced (R142). -/
def execSerStep (d : Byte) (s : State) : Host.Outcome State Fault Refusal :=
  acceptIn [.ser] (serializeByte d) s

end Sys2Proof.Machine
end

