-- ==== Sys2Proof/Machine/Dispatch.lean ====
section
/-! DEFINITION. One arm per command of 30_encoding.md R75, each one call of its meaning. -/

namespace Sys2Proof.Machine

-- A legal command word performs its command's rule (44_control.md R162); the STATE check of R168 is in each meaning.
def exec (i : Instr) (s : State) : Host.Outcome State Fault Refusal :=
  match i with
  | .nop => Sys2Proof.Machine.execNop s
  | .crcInit => Sys2Proof.Machine.execCrcInit s
  | .crcFeed b => Sys2Proof.Machine.execCrcFeed b s
  | .parseBegin => Sys2Proof.Machine.execParseBegin s
  | .parseFeed b => Sys2Proof.Machine.execParseFeed b s
  | .parseEnd => Sys2Proof.Machine.execParseEnd s
  | .serBegin => Sys2Proof.Machine.execSerBegin s
  | .serStep d => Sys2Proof.Machine.execSerStep d s
  | .abort => Sys2Proof.Machine.execAbort s

end Sys2Proof.Machine
end

