-- ==== Sys2Proof/Machine/Transact.lean ====
section
/-! DEFINITION. The host's transactions (00_scope.md R6; 44_control.md R160 to R165; 70_reset_and_hazards.md R200). -/

namespace Sys2Proof.Machine

/-- Write(CMD, w): decode first; an illegal word sets ERR to ILLEGAL and changes nothing else; a legal one performs its
command, which checks STATE itself (R76, R162, R185). The word is not retained (R64). -/
def writeCmd (w : Word) (s : State) : Host.Outcome State Fault Refusal :=
  match decode w with
  | .ok i => exec i s
  | .error _ => .next (setErr .illegal s)

/-- Write(LENGTH, v), accepted in IDLE (R163). -/
def writeLength (v : Word) (s : State) : Host.Outcome State Fault Refusal :=
  acceptIn [.idle] (fun s => { s with length := v }) s

/-- Write(TYPE, v), accepted in IDLE (R164). -/
def writeType (v : Word) (s : State) : Host.Outcome State Fault Refusal :=
  acceptIn [.idle] (fun s => { s with chunkType := v }) s

/-- Write(CRC_EXPECT, v), accepted in IDLE (R165). -/
def writeCrcExpect (v : Word) (s : State) : Host.Outcome State Fault Refusal :=
  acceptIn [.idle] (fun s => { s with crcExpect := v }) s

/-- A write to a register. A write to a read-only or reserved offset has no effect at all (R161). -/
def writeReg (r : Reg) (v : Word) (s : State) : Host.Outcome State Fault Refusal :=
  match r with
  | .cmd => writeCmd v s
  | .status => .next s
  | .length => writeLength v s
  | .chunkType => writeType v s
  | .typeFlags => .next s
  | .crcExpect => writeCrcExpect v s
  | .crcValue => .next s
  | .crcRaw => .next s
  | .count => .next s
  | .outByte => .next s
  | .id => .next s
  | .reserved => .next s

/-- One transaction, with all its effects (R6, R57). -/
def transact (t : Transaction) (s : State) : Host.Outcome State Fault Refusal :=
  match t with
  | .reset => .next (resetBlock s)
  | .write off v => writeReg (regAt off) v s
  | .read off => .next (recordRead (readReg (regAt off) s) s)

/-- A sequence of transactions, one after the other in the host's order (R6, R61). -/
def transactAll : List Transaction → State → Host.Outcome State Fault Refusal
  | [], s => .next s
  | t :: ts, s =>
    match transact t s with
    | .next u => transactAll ts u
    | .fault r => .fault r
    | .refused r => .refused r

/-- What a step does: the host's next transaction is taken and performed. With none pending the block waits: it is
passive and never acts on its own (R6, R200; notes/assumptions/2.md). -/
def stepPending (s : State) : Host.Outcome State Fault Refusal :=
  match s.pending with
  | [] => .next s
  | t :: ts => transact t { s with pending := ts }

/-- The host's next transaction becomes the Write to CMD of the word whose bits are the low `nbits` of `w` (R70, R162). -/
def offerCommand (nbits w : Nat) (s : State) : State :=
  { s with pending := .write 0x00#8 (BitVec.ofNat 32 (w % 2 ^ nbits)) :: s.pending }

end Sys2Proof.Machine
end

