-- ==== Sys2Proof/Machine/Step.lean ====
section
/-! DEFINITION. One step of the machine is one transaction of the host (00_scope.md R6). The block has no program counter
and fetches nothing (10_state.md R38): what a step runs next is the host's next transaction. -/

namespace Sys2Proof.Machine

/-- One step (R6). -/
def step (s : State) : Host.Outcome State Fault Refusal := stepPending s

/-- The state in which the very next step runs the command word `w`: the host's next transaction writes it to CMD. -/
def State.withFetchWord (s : State) (nbits w : Nat) : State := offerCommand nbits w s

end Sys2Proof.Machine
end

