-- ==== Sys2Proof/Machine/Assembler.lean ====
section
/-! DEFINITION. The host's program notation (30_encoding.md R80 to R82): a line of text, what it says, and the
transactions it stands for. The notation "has no semantics beyond its expansion" (92 D27), so it adds nothing to `State`. -/

namespace Sys2Proof.Machine

/-- What one line of a host program says (R80, R81, R82). -/
inductive Line where
  /-- A line with nothing on it but, perhaps, a comment. -/
  | blank
  /-- A command (R80). -/
  | command (i : Instr)
  /-- `WR <name>, <value>` (R81). -/
  | wr (off : Offset) (v : Word)
  /-- `RD <name>`, or `RD <name> = <value>` with the value expected of it (R81). -/
  | rd (off : Offset) (expected : Option Word)
  /-- `RESET` (R81). -/
  | reset
  /-- `CRC.BYTES b0, ..., bn` (R82). -/
  | crcBytes (bs : List Byte)
  /-- `CRC.STR "text"`, with the ASCII bytes of the text (R82). -/
  | crcStr (bs : List Byte)
  /-- `PARSE.BYTES b0, ..., bn` (R82). -/
  | parseBytes (bs : List Byte)
  /-- `SER.HDR` (R82). -/
  | serHdr
  /-- `SER.DATA b0, ..., bn` (R82). -/
  | serData (bs : List Byte)
  /-- `SER.TAIL` (R82). -/
  | serTail
  /-- `CHECK v` (R82). -/
  | check (v : Word)
  deriving DecidableEq, Repr

/-- A command line stands for `WR CMD, <word>` with the command's word (R80). -/
def commandWrite (i : Instr) : Transaction := .write 0x00#8 (encode i)

/-- The transactions a line stands for (R80, R81, R82). -/
def Line.expand : Line → List Transaction
  | .blank => []
  | .command i => [commandWrite i]
  | .wr off v => [.write off v]
  | .rd off _ => [.read off]
  | .reset => [.reset]
  | .crcBytes bs => bs.map fun b => commandWrite (.crcFeed b)
  | .crcStr bs => bs.map fun b => commandWrite (.crcFeed b)
  | .parseBytes bs => bs.map fun b => commandWrite (.parseFeed b)
  | .serHdr => List.replicate 8 (commandWrite (.serStep 0x00#8))
  | .serData bs => bs.map fun b => commandWrite (.serStep b)
  | .serTail => List.replicate 4 (commandWrite (.serStep 0x00#8))
  | .check v => [.write 0x14#8 v, .read 0x04#8]

/-! ### From text to tokens -/

/-- The pieces of a line. -/
inductive Token where
  /-- A name or a number: letters, digits, `.` and `_`. -/
  | word (cs : List Char)
  /-- A character literal (R80). -/
  | chr (c : Char)
  /-- A string literal (R81, R82). -/
  | str (cs : List Char)
  /-- A comma. -/
  | comma
  /-- An equals sign. -/
  | equals
  deriving DecidableEq, Repr

/-- Where the reader of a line stands. -/
inductive LexMode where
  /-- Between two pieces. -/
  | gap
  /-- Inside a name or number. -/
  | word (cs : List Char)
  /-- After the opening quote of a character literal. -/
  | chr
  /-- After the character of a character literal. -/
  | chrEnd (c : Char)
  /-- Inside a string literal. -/
  | str (cs : List Char)
  /-- After `;`: the rest of the line is a comment (R81). -/
  | comment
  /-- After a character that begins nothing. -/
  | bad
  deriving DecidableEq, Repr

/-- The reader of a line: where it stands and what it has read. -/
structure LexState where
  /-- Where it stands. -/
  mode : LexMode
  /-- The pieces read so far. -/
  out : List Token
  deriving DecidableEq, Repr

/-- A single quote. -/
def singleQuote : Char := Char.ofNat 0x27

/-- A double quote. -/
def doubleQuote : Char := Char.ofNat 0x22

/-- The characters of names and numbers. -/
def isWordChar (c : Char) : Bool :=
  ('A' ≤ c && c ≤ 'Z') || ('a' ≤ c && c ≤ 'z') || ('0' ≤ c && c ≤ '9') || c == '.' || c == '_'

/-- A character met between two pieces. -/
def lexGap (out : List Token) (c : Char) : LexState :=
  if c = ' ' ∨ c = Char.ofNat 9 then ⟨.gap, out⟩
  else if c = ';' then ⟨.comment, out⟩
  else if c = ',' then ⟨.gap, out ++ [.comma]⟩
  else if c = '=' then ⟨.gap, out ++ [.equals]⟩
  else if c = singleQuote then ⟨.chr, out⟩
  else if c = doubleQuote then ⟨.str [], out⟩
  else if isWordChar c then ⟨.word [c], out⟩
  else ⟨.bad, out⟩

/-- One character of a line. -/
def lexChar (st : LexState) (c : Char) : LexState :=
  match st.mode with
  | .gap => lexGap st.out c
  | .word cs => if isWordChar c then ⟨.word (cs ++ [c]), st.out⟩ else lexGap (st.out ++ [.word cs]) c
  | .chr => ⟨.chrEnd c, st.out⟩
  | .chrEnd d => if c = singleQuote then ⟨.gap, st.out ++ [.chr d]⟩ else ⟨.bad, st.out⟩
  | .str cs => if c = doubleQuote then ⟨.gap, st.out ++ [.str cs]⟩ else ⟨.str (cs ++ [c]), st.out⟩
  | .comment => st
  | .bad => st

/-- The pieces of a line, if it has a form at all. -/
def lexLine (cs : List Char) : Option (List Token) :=
  let st := cs.foldl lexChar ⟨.gap, []⟩
  match st.mode with
  | .gap => some st.out
  | .word w => some (st.out ++ [.word w])
  | .comment => some st.out
  | .chr => none
  | .chrEnd _ => none
  | .str _ => none
  | .bad => none

/-! ### Numbers, bytes, names -/

/-- The value of a hex digit. -/
def hexDigit (c : Char) : Option Nat :=
  if '0' ≤ c ∧ c ≤ '9' then some (c.toNat - 48)
  else if 'A' ≤ c ∧ c ≤ 'F' then some (c.toNat - 55)
  else if 'a' ≤ c ∧ c ≤ 'f' then some (c.toNat - 87)
  else none

/-- The value of a decimal digit. -/
def decDigit (c : Char) : Option Nat := if '0' ≤ c ∧ c ≤ '9' then some (c.toNat - 48) else none

/-- The value of a string of digits, the first the most significant. -/
def digits (base : Nat) (digit : Char → Option Nat) (acc : Nat) : List Char → Option Nat
  | [] => some acc
  | c :: cs =>
    match digit c with
    | some d => digits base digit (base * acc + d) cs
    | none => none

/-- A number in hex (`0x` and digits) or decimal. -/
def number : List Char → Option Nat
  | [] => none
  | '0' :: 'x' :: [] => none
  | '0' :: 'x' :: c :: cs => digits 16 hexDigit 0 (c :: cs)
  | c :: cs => digits 10 decDigit 0 (c :: cs)

/-- A 32-bit number (R81). -/
def wordOf (cs : List Char) : Option Word :=
  match number cs with
  | some n => if n < 2 ^ 32 then some (BitVec.ofNat 32 n) else none
  | none => none

/-- The ASCII code of a character (R80). -/
def asciiOf (c : Char) : Option Byte := if c.toNat < 128 then some (BitVec.ofNat 8 c.toNat) else none

/-- A byte operand: `0xHH`, a decimal 0..255, or a character literal (R80). -/
def byteOperand : Token → Option Byte
  | .word ('0' :: 'x' :: h :: l :: []) =>
    match digits 16 hexDigit 0 [h, l] with
    | some n => some (BitVec.ofNat 8 n)
    | none => none
  | .word ('0' :: 'x' :: _) => none
  | .word cs =>
    match number cs with
    | some n => if n < 256 then some (BitVec.ofNat 8 n) else none
    | none => none
  | .chr c => asciiOf c
  | .str _ => none
  | .comma => none
  | .equals => none

/-- One or more bytes, separated by commas (R82). -/
def byteList : List Token → Option (List Byte)
  | [] => none
  | [t] =>
    match byteOperand t with
    | some b => some [b]
    | none => none
  | t :: sep :: ts =>
    match sep, byteOperand t, byteList ts with
    | .comma, some b, some bs => some (b :: bs)
    | _, _, _ => none

/-- The ASCII bytes of a text (R82). -/
def asciiBytes : List Char → Option (List Byte)
  | [] => some []
  | c :: cs =>
    match asciiOf c, asciiBytes cs with
    | some b, some bs => some (b :: bs)
    | _, _ => none

/-- The register names of R36 with their offsets. -/
def registerNames : List (List Char × Offset) :=
  [ ("CMD".toList, 0x00#8), ("STATUS".toList, 0x04#8), ("LENGTH".toList, 0x08#8), ("TYPE".toList, 0x0C#8),
    ("TYPE_FLAGS".toList, 0x10#8), ("CRC_EXPECT".toList, 0x14#8), ("CRC_VALUE".toList, 0x18#8),
    ("CRC_RAW".toList, 0x1C#8), ("COUNT".toList, 0x20#8), ("OUT_BYTE".toList, 0x24#8), ("ID".toList, 0x28#8) ]

/-- A reserved slot by name, `RSV_0x2C` to `RSV_0xFC` (R81): an offset that is a multiple of 4 (R51). -/
def reservedName : List Char → Option Offset
  | 'R' :: 'S' :: 'V' :: '_' :: '0' :: 'x' :: h :: l :: [] =>
    match digits 16 hexDigit 0 [h, l] with
    | some n => if 0x2C ≤ n ∧ n % 4 = 0 then some (BitVec.ofNat 8 n) else none
    | none => none
  | _ => none

/-- The offset of a register name (R81). -/
def offsetOf (cs : List Char) : Option Offset :=
  match registerNames.find? (fun p => p.1 == cs) with
  | some p => some p.2
  | none => reservedName cs

/-- The `<value>` of a `WR` or `RD` line: a 32-bit number, or for TYPE a four-character string (R81). -/
def valueOf (off : Offset) : Token → Option Word
  | .word cs => wordOf cs
  | .str cs =>
    if off = 0x0C#8 then
      match asciiBytes cs with
      | some [a, b, c, d] => some (a ++ b ++ c ++ d)
      | _ => none
    else none
  | .chr _ => none
  | .comma => none
  | .equals => none

/-- The name a command is written with: its mnemonic with `_` replaced by `.` (R80). -/
def dotted (mnemonic : String) : List Char := mnemonic.toList.map fun c => if c = '_' then '.' else c

/-! ### Lines -/

/-- The commands without an operand, found by their written name (R80). -/
def plainCommand (name : List Char) : Option Instr :=
  [Instr.nop, Instr.crcInit, Instr.parseBegin, Instr.parseEnd, Instr.serBegin, Instr.abort].find?
    fun i => dotted i.mnemonic == name

/-- The commands with an operand, found by their written name (R80). -/
def byteCommand (name : List Char) (b : Byte) : Option Instr :=
  [Instr.crcFeed b, Instr.parseFeed b, Instr.serStep b].find? fun i => dotted i.mnemonic == name

/-- The line that begins with `name` and goes on with `rest` (R80, R81, R82). `SER.STEP` alone means `SER.STEP 0x00`. What
`RD <name> = <value>` may have as its value is the model's choice (DESIGN CHOICE: notes/assumptions/8.md): every form R81
gives `<value>` after `WR`, so for TYPE a four-character string too. -/
def lineOf (name : List Char) (rest : List Token) : Option Line :=
  if name = "RESET".toList then
    match rest with
    | [] => some .reset
    | _ => none
  else if name = "WR".toList then
    match rest with
    | [.word r, .comma, v] =>
      match offsetOf r with
      | some off => (valueOf off v).map (Line.wr off)
      | none => none
    | _ => none
  else if name = "RD".toList then
    match rest with
    | [.word r] => (offsetOf r).map fun off => Line.rd off none
    | [.word r, .equals, v] =>
      match offsetOf r with
      | some off => (valueOf off v).map fun w => Line.rd off (some w)
      | none => none
    | _ => none
  else if name = "CRC.BYTES".toList then (byteList rest).map .crcBytes
  else if name = "PARSE.BYTES".toList then (byteList rest).map .parseBytes
  else if name = "SER.DATA".toList then (byteList rest).map .serData
  else if name = "CRC.STR".toList then
    match rest with
    | [.str cs] => (asciiBytes cs).map .crcStr
    | _ => none
  else if name = "SER.HDR".toList then
    match rest with
    | [] => some .serHdr
    | _ => none
  else if name = "SER.TAIL".toList then
    match rest with
    | [] => some .serTail
    | _ => none
  else if name = "CHECK".toList then
    match rest with
    | [.word v] => (wordOf v).map .check
    | _ => none
  else
    match rest with
    | [] =>
      match plainCommand name with
      | some i => some (.command i)
      | none => if name = "SER.STEP".toList then some (.command (.serStep 0x00#8)) else none
    | [t] =>
      match byteOperand t with
      | some b => (byteCommand name b).map .command
      | none => none
    | _ => none

/-- What a line of text says, if it is a line of the notation (R80, R81, R82). -/
def parseLine (cs : List Char) : Option Line :=
  match lexLine cs with
  | some [] => some .blank
  | some (.word name :: rest) => lineOf name rest
  | _ => none

/-- The transactions a program stands for, one line after the other (R80). -/
def assemble : List (List Char) → Option (List Transaction)
  | [] => some []
  | l :: ls =>
    match parseLine l, assemble ls with
    | some x, some ts => some (x.expand ++ ts)
    | _, _ => none

/-- A hex digit as it is written. -/
def hexChar (d : BitVec 4) : Char := if d < 10#4 then Char.ofNat (48 + d.toNat) else Char.ofNat (55 + d.toNat)

/-- A byte as it is written, `0xHH` (R80). -/
def byteText (b : Byte) : List Char := ['0', 'x', hexChar (b.extractLsb' 4 4), hexChar (b.extractLsb' 0 4)]

/-- A command as it is written (R80). -/
def commandText (i : Instr) : List Char :=
  match i with
  | .nop => dotted i.mnemonic
  | .crcInit => dotted i.mnemonic
  | .crcFeed b => dotted i.mnemonic ++ [' '] ++ byteText b
  | .parseBegin => dotted i.mnemonic
  | .parseFeed b => dotted i.mnemonic ++ [' '] ++ byteText b
  | .parseEnd => dotted i.mnemonic
  | .serBegin => dotted i.mnemonic
  | .serStep d => dotted i.mnemonic ++ [' '] ++ byteText d
  | .abort => dotted i.mnemonic

end Sys2Proof.Machine
end

