-- ==== Sys2Proof/Machine/HostProtocol.lean ====
section
/-! DEFINITION. Frames as bytes (42_parser.md R120) and the host's protocols over the block: feeding a frame to the parser
(70_reset_and_hazards.md R203), collecting one from the serializer (R204) and checking a CRC (41_crc.md R106). These are
sequences of transactions; they add nothing to the block. -/

namespace Sys2Proof.Machine

/-- The four bytes of a word in big-endian order, `byte(v, 0..3)` (R10, R52). -/
def wordBytes (v : Word) : List Byte :=
  [v.extractLsb' 24 8, v.extractLsb' 16 8, v.extractLsb' 8 8, v.extractLsb' 0 8]

/-- The value of a byte string read as a big-endian number (R52, R132). -/
def bigEndian (bs : List Byte) : Word := bs.foldl shiftIn 0#32

/-- What the CRC of a frame covers: the type bytes, then the data bytes (R107). -/
def coveredBytes (type : Word) (data : List Byte) : List Byte := wordBytes type ++ data

/-- The frame of a length, a type and data bytes:
`byte(L,0..3) ++ byte(T,0..3) ++ d0 .. d(L-1) ++ byte(C,0..3)` with `C = CRC32(byte(T,0..3) ++ d0 .. d(L-1))` (R146). -/
def frameBytes (length type : Word) (data : List Byte) : List Byte :=
  wordBytes length ++ wordBytes type ++ data ++ wordBytes (crc32 (coveredBytes type data))

/-- One PARSE_FEED per byte. -/
def feedAll (bs : List Byte) : List Transaction := bs.map fun b => commandWrite (.parseFeed b)

/-- PARSE_BEGIN and one PARSE_FEED per byte (R203 (2), (3)). -/
def parseRun (bs : List Byte) : List Transaction := commandWrite .parseBegin :: feedAll bs

/-- As `parseRun`, with a Read of OUT_BYTE after each byte (R128). -/
def parseEchoRun (bs : List Byte) : List Transaction :=
  commandWrite .parseBegin :: bs.flatMap fun b => [commandWrite (.parseFeed b), .read 0x24#8]

/-- One SER_STEP per operand, with a Read of OUT_BYTE after each (R204 (4)). -/
def stepAll (operands : List Byte) : List Transaction :=
  operands.flatMap fun d => [commandWrite (.serStep d), .read 0x24#8]

/-- The host's serialization of one chunk: LENGTH and TYPE written, SER_BEGIN, then the steps (R204 (2) to (4)). -/
def serializeRun (length type : Word) (operands : List Byte) : List Transaction :=
  [.write 0x08#8 length, .write 0x0C#8 type, commandWrite .serBegin] ++ stepAll operands

/-- The host's check of a byte string against an expected CRC: CRC_INIT, the bytes, CRC_EXPECT, and a Read of STATUS
(R106). -/
def checkRun (m : List Byte) (expected : Word) : List Transaction :=
  [commandWrite .crcInit] ++ (m.map fun b => commandWrite (.crcFeed b)) ++ [.write 0x14#8 expected, .read 0x04#8]

/-- R203 (3): while STATE is PARSE and the source has bytes, the next byte is fed; the bytes left over are returned. -/
def feedWhileParsing : List Byte → State → Host.Outcome (State × List Byte) Fault Refusal
  | [], s => .next (s, [])
  | b :: bs, s =>
    if s.opState = .parse then
      match transact (commandWrite (.parseFeed b)) s with
      | .next u => feedWhileParsing bs u
      | .fault r => .fault r
      | .refused r => .refused r
    else .next (s, b :: bs)

/-- R203 (4): if STATE is still PARSE when the source is empty, PARSE_END. -/
def endIfParsing (s : State) : Host.Outcome State Fault Refusal :=
  if s.opState = .parse then transact (commandWrite .parseEnd) s else .next s

/-- R203: the host parses one frame from a byte source; the state it reads its verdict from and the bytes left over. -/
def parseOneFrame (source : List Byte) (s : State) : Host.Outcome (State × List Byte) Fault Refusal :=
  match transact (commandWrite .parseBegin) s with
  | .next u =>
    match feedWhileParsing source u with
    | .next p =>
      match endIfParsing p.1 with
      | .next v => .next (v, p.2)
      | .fault r => .fault r
      | .refused r => .refused r
    | .fault r => .fault r
    | .refused r => .refused r
  | .fault r => .fault r
  | .refused r => .refused r

end Sys2Proof.Machine
end

