-- ==== Sys2Proof/Safety.lean ====
section
/-! DEFINITION. What counts as a good state and the words claims use: the invariants of 10_state.md R42, the acceptance
table of 44_control.md R168, and relations between a state, a transaction and the next state. No step reads these. -/

namespace Sys2Proof.Machine

/-! ### The invariants of every reachable state -/

/-- R42 (b): during a frame COUNT is below 4 in LEN, TYPE and CRC, and below LENGTH in DATA. -/
abbrev CountBounded (s : State) : Prop :=
  s.opState ≠ .idle →
    (s.field = .len → s.count < 4#32) ∧ (s.field = .type → s.count < 4#32) ∧
    (s.field = .crc → s.count < 4#32) ∧ (s.field = .data → s.count < s.length)

/-- R42 (c): during a frame RESULT is NONE. -/
abbrev NoVerdictYet (s : State) : Prop := s.opState ≠ .idle → s.result = .none

/-- R42 (d): the register of the field being parsed holds only the bytes consumed so far. -/
abbrev PartlyAssembled (s : State) : Prop :=
  s.opState = .parse →
    (s.field = .len → s.length.toNat < 2 ^ (8 * s.count.toNat)) ∧
    (s.field = .type → s.chunkType.toNat < 2 ^ (8 * s.count.toNat)) ∧
    (s.field = .crc → s.crcExpect.toNat < 2 ^ (8 * s.count.toNat))

/-- The invariants of R42; (a) holds by the types of STATE, RESULT and ERR. -/
abbrev ReachableInvariant (s : State) : Prop := CountBounded s ∧ NoVerdictYet s ∧ PartlyAssembled s

/-- What a parse has not come to yet still holds what PARSE_BEGIN left (R121): with it R42 carries itself from step to
step. -/
abbrev NotYetAssembled (s : State) : Prop :=
  s.opState = .parse →
    (s.field = .len → s.chunkType = 0#32 ∧ s.crcState = 0xFFFFFFFF#32) ∧ (s.field ≠ .crc → s.crcExpect = 0#32)

/-- The invariant every step keeps. -/
abbrev FrameInvariant (s : State) : Prop := ReachableInvariant s ∧ NotYetAssembled s

/-! ### Acceptance -/

/-- The table of R168: the values of STATE in which a command is accepted. -/
def acceptedIn : Instr → OpState → Bool
  | .nop, .idle => true
  | .nop, .parse => true
  | .nop, .ser => true
  | .crcInit, .idle => true
  | .crcInit, .parse => false
  | .crcInit, .ser => false
  | .crcFeed _, .idle => true
  | .crcFeed _, .parse => false
  | .crcFeed _, .ser => false
  | .parseBegin, .idle => true
  | .parseBegin, .parse => false
  | .parseBegin, .ser => false
  | .parseFeed _, .idle => false
  | .parseFeed _, .parse => true
  | .parseFeed _, .ser => false
  | .parseEnd, .idle => false
  | .parseEnd, .parse => true
  | .parseEnd, .ser => false
  | .serBegin, .idle => true
  | .serBegin, .parse => false
  | .serBegin, .ser => false
  | .serStep _, .idle => false
  | .serStep _, .parse => false
  | .serStep _, .ser => true
  | .abort, .idle => true
  | .abort, .parse => true
  | .abort, .ser => true

/-! ### Relations -/

/-- The transaction writes the command's word to CMD. -/
def Issues (t : Transaction) (i : Instr) : Prop := ∃ off, slotOf off = 0#6 ∧ t = .write off (encode i)

/-- The transaction writes to CMD, LENGTH, TYPE or CRC_EXPECT, the four writes that report in ERR (R30). -/
def ReportsInErr (t : Transaction) : Prop :=
  ∃ off v, t = .write off v ∧
    (slotOf off = 0#6 ∨ slotOf off = 2#6 ∨ slotOf off = 3#6 ∨ slotOf off = 5#6)

/-- The transaction is a Read. -/
def isRead : Transaction → Bool
  | .reset => false
  | .write _ _ => false
  | .read _ => true

/-- The two states agree in all ten fields of the state record (R20). -/
def SameBlock (s u : State) : Prop :=
  s.opState = u.opState ∧ s.field = u.field ∧ s.count = u.count ∧ s.length = u.length ∧
  s.chunkType = u.chunkType ∧ s.crcState = u.crcState ∧ s.crcExpect = u.crcExpect ∧ s.outByte = u.outByte ∧
  s.result = u.result ∧ s.err = u.err

/-- The byte string with bit `bit` of the byte at `index` inverted (R108). -/
def flipBit (bs : List Byte) (index : Nat) (bit : Fin 8) : List Byte :=
  bs.modify index fun b => b ^^^ (1#8 <<< bit.val)

end Sys2Proof.Machine
end

