-- ==== Sys2Proof/Certificates/Slice0/Obligations.lean ====
section
/-! DEFINITION. The statements for the provers, in the order of OBLIGATIONS.json. -/

open Sys2Proof Sys2Proof.Machine

/-! ## Encoding (30_encoding.md) -/

/-- R70 to R76: a word decodes to a command exactly when it is that command's word: no bit of an encoding is dropped, and
each legal word has one meaning. -/
def Obligations.DecodeAndEncodeAgree : Prop :=
  ∀ (w : Word) (i : Instr), decode w = .ok i ↔ w = encode i

/-- R75, the match and mask columns: a word selects a row exactly when it decodes to that row's command, with IMM8 as the
operand. -/
def Obligations.RowsSelectTheirCommands : Prop :=
  ∀ w : Word,
    (w &&& 0xFFFFFFFF#32 = 0x00000000#32 ↔ decode w = .ok .nop) ∧
    (w &&& 0xFFFFFFFF#32 = 0x00000001#32 ↔ decode w = .ok .crcInit) ∧
    (w &&& 0xFFFF00FF#32 = 0x00000002#32 ↔ decode w = .ok (.crcFeed (w.extractLsb' 8 8))) ∧
    (w &&& 0xFFFFFFFF#32 = 0x00000003#32 ↔ decode w = .ok .parseBegin) ∧
    (w &&& 0xFFFF00FF#32 = 0x00000004#32 ↔ decode w = .ok (.parseFeed (w.extractLsb' 8 8))) ∧
    (w &&& 0xFFFFFFFF#32 = 0x00000005#32 ↔ decode w = .ok .parseEnd) ∧
    (w &&& 0xFFFFFFFF#32 = 0x00000006#32 ↔ decode w = .ok .serBegin) ∧
    (w &&& 0xFFFF00FF#32 = 0x00000007#32 ↔ decode w = .ok (.serStep (w.extractLsb' 8 8))) ∧
    (w &&& 0xFFFFFFFF#32 = 0x00000008#32 ↔ decode w = .ok .abort)

/-- R76: which words are legal, in both of the rule's forms, and what an illegal word does: ERR becomes ILLEGAL and
nothing else changes, in every STATE; a legal word never reports ILLEGAL. -/
def Obligations.LegalWordsAndIllegalWords : Prop :=
  ∀ w : Word,
    ((∃ i, decode w = .ok i) ↔
      w.extractLsb' 16 16 = 0#16 ∧ w.extractLsb' 4 4 = 0#4 ∧ w.extractLsb' 0 4 ≤ 8#4 ∧
        ((w.extractLsb' 0 4 = 2#4 ∨ w.extractLsb' 0 4 = 4#4 ∨ w.extractLsb' 0 4 = 7#4) ∨ w.extractLsb' 8 8 = 0#8)) ∧
    ((∃ i, decode w = .ok i) ↔ ∃ r ∈ opcodeRows, w &&& r.mask = r.pattern) ∧
    (∀ s : State, (¬ ∃ i, decode w = .ok i) → transact (.write 0x00#8 w) s = .next { s with err := .illegal }) ∧
    (∀ s : State, (∃ i, decode w = .ok i) → ∃ t, transact (.write 0x00#8 w) s = .next t ∧ t.err ≠ .illegal)

/-- R73, R74, R77: a word with a reserved bit set, with a non-zero IMM8 in a command without an operand, or with a
reserved OP is an illegal command. -/
def Obligations.ReservedBitsOperandsAndOpsAreIllegal : Prop :=
  ∀ (w : Word) (s : State),
    (w.extractLsb' 4 4 ≠ 0#4 ∨ w.extractLsb' 16 16 ≠ 0#16 ∨
      (w.extractLsb' 8 8 ≠ 0#8 ∧
        (w.extractLsb' 0 4 = 0#4 ∨ w.extractLsb' 0 4 = 1#4 ∨ w.extractLsb' 0 4 = 3#4 ∨ w.extractLsb' 0 4 = 5#4 ∨
          w.extractLsb' 0 4 = 6#4 ∨ w.extractLsb' 0 4 = 8#4)) ∨
      9#4 ≤ w.extractLsb' 0 4) →
    transact (.write 0x00#8 w) s = .next { s with err := .illegal }

/-- Words written out from R70 and R75 decode to the commands they stand for; a sanity check. -/
def Obligations.SampleWordsDecode : Prop :=
  decode 0x00000000#32 = .ok .nop ∧ decode 0x00000001#32 = .ok .crcInit ∧
  decode 0x00004902#32 = .ok (.crcFeed 0x49#8) ∧ decode 0x00000003#32 = .ok .parseBegin ∧
  decode 0x0000AE04#32 = .ok (.parseFeed 0xAE#8) ∧ decode 0x00000005#32 = .ok .parseEnd ∧
  decode 0x00000006#32 = .ok .serBegin ∧ decode 0x00006C07#32 = .ok (.serStep 0x6C#8) ∧
  decode 0x00000008#32 = .ok .abort

/-- R80: the text of a command is a line that says that command, and the line stands for the Write to CMD of its word. -/
def Obligations.CommandTextAssembles : Prop :=
  ∀ i : Instr, assemble [commandText i] = some [.write 0x00#8 (encode i)]

/-! ## The step (00_scope.md) -/

/-- R6, R162: when the host's next transaction writes a legal word to CMD, the step is the command's meaning in the state
from which that transaction has been taken. That the host's transactions stand in `pending` is the model's choice (DESIGN
CHOICE: notes/assumptions/1.md). -/
def Obligations.StepRunsTheDecodedCommand : Prop :=
  ∀ (s : State) (off : Offset) (w : Word) (ts : List Transaction) (i : Instr),
    s.pending = .write off w :: ts → off.extractLsb' 2 6 = 0#6 → decode w = .ok i →
      step s = exec i { s with pending := ts }

/-- A command word given to `withFetchWord` is what the very next step runs (the model's own interface:
notes/assumptions/1.md). -/
def Obligations.WithFetchWordRunsItsCommand : Prop :=
  ∀ (s : State) (w : Word) (i : Instr),
    decodeTableWord 32 w.toNat = some i → step (s.withFetchWord 32 w.toNat) = exec i s

/-- R7: every transaction on every state has exactly one outcome, a next state, and so has every step; a malformed command
and a command issued in the wrong state are answered by an error code in ERR and change nothing else. That a step with no
transaction pending is a next state too is no rule of the spec but the model's choice (DESIGN CHOICE:
notes/assumptions/2.md). -/
def Obligations.StepIsTotal : Prop :=
  (∀ s : State, ∃ t, step s = .next t) ∧
  (∀ (x : Transaction) (s : State), ∃ t, transact x s = .next t) ∧
  (∀ (w : Word) (s : State), (∀ i, decode w ≠ .ok i) → transact (.write 0x00#8 w) s = .next { s with err := .illegal }) ∧
  (∀ (w : Word) (s : State) (i : Instr), decode w = .ok i → acceptedIn i s.opState = false →
    transact (.write 0x00#8 w) s = .next { s with err := .sequence })

/-- R61, R57: the steps of the machine perform the pending transactions one at a time in the order the host issues them,
each on the state the one before it left. That they stand in `pending`, and that a Reset keeps it, is the model's choice
(DESIGN CHOICE: notes/assumptions/1.md, notes/assumptions/9.md). -/
def Obligations.StepsPerformTransactionsInOrder : Prop :=
  ∀ (ts us : List Transaction) (s t : State),
    transactAll ts { s with pending := us } = .next t →
      Host.Core.run Sys2Proof.core ts.length { s with pending := ts ++ us } = .next t

/-- R6, R20: the next state record and the value read are a function of the state record and the transaction alone: two
states that agree in the ten fields of R20 go to states that agree in them, and a Read returns the same word in both. That
`pending` stays and `reads` only grows, at a Reset too, is no rule of the spec but the model's choice (DESIGN CHOICE:
notes/assumptions/1.md, notes/assumptions/9.md). -/
def Obligations.NothingElsePersists : Prop :=
  ∀ (x : Transaction) (s s' : State), SameBlock s s' →
    ∃ t t' vs, transact x s = .next t ∧ transact x s' = .next t' ∧ SameBlock t t' ∧
      t.reads = s.reads ++ vs ∧ t'.reads = s'.reads ++ vs ∧ t.pending = s.pending ∧ t'.pending = s'.pending

/-! ## Reset (70_reset_and_hazards.md) -/

/-- R41, R200: Reset is accepted in every state and sets every field of the state record to its reset value; after it
STATUS reads 0x00000010, TYPE_FLAGS and CRC_VALUE read 0 and MATCH is 1. That `pending` and `reads` stay is no rule of the
spec but the model's choice (DESIGN CHOICE: notes/assumptions/9.md). -/
def Obligations.ResetSetsEveryField : Prop :=
  ∀ s : State, ∃ t, transact .reset s = .next t ∧
    t = { opState := .idle, field := .len, count := 0#32, length := 0#32, chunkType := 0#32,
          crcState := 0xFFFFFFFF#32, crcExpect := 0#32, outByte := 0#8, result := .none, err := .none,
          pending := s.pending, reads := s.reads } ∧
    readReg .status t = 0x00000010#32 ∧ readReg .typeFlags t = 0#32 ∧ readReg .crcValue t = 0#32 ∧
    t.isMatch = true

/-! ## Reads and derived registers (10_state.md, 40_chunk_type.md, 44_control.md) -/

/-- R160: a Read returns the value the table of R36 gives for the register at its offset, computed on the current state;
CMD and the reserved offsets return 0; nothing else changes, ERR included. -/
def Obligations.ReadReturnsTheRegister : Prop :=
  ∀ (off : Offset) (s : State), ∃ v, transact (.read off) s = .next { s with reads := s.reads ++ [v] } ∧
    (off = 0x00#8 → v = 0#32) ∧ (off = 0x04#8 → v = s.status) ∧ (off = 0x08#8 → v = s.length) ∧
    (off = 0x0C#8 → v = s.chunkType) ∧ (off = 0x10#8 → v = typeFlags s.chunkType) ∧
    (off = 0x14#8 → v = s.crcExpect) ∧ (off = 0x18#8 → v = s.crcState ^^^ 0xFFFFFFFF#32) ∧
    (off = 0x1C#8 → v = s.crcState) ∧ (off = 0x20#8 → v = s.count) ∧
    (off = 0x24#8 → v = 0#24 ++ s.outByte) ∧ (off = 0x28#8 → v = 0x504E4743#32) ∧ (0x2C#8 ≤ off → v = 0#32)

/-- R58: Reads have no side effects: they may be omitted without changing the state, and while no Write or Reset
intervenes each returns the word it would return at once. -/
def Obligations.ReadsHaveNoSideEffects : Prop :=
  (∀ (ts : List Transaction) (s : State), ∃ t u, transactAll ts s = .next t ∧
    transactAll (ts.filter fun x => !isRead x) s = .next u ∧ t = { u with reads := t.reads }) ∧
  (∀ (offs : List Offset) (s : State),
    transactAll (offs.map Transaction.read) s =
      .next { s with reads := s.reads ++ offs.map fun off => readReg (regAt off) s })

/-- R51: the slot of a transaction is `off[7:2]`: two offsets that differ only in bits [1:0] reach the same register. -/
def Obligations.OffsetLowBitsDoNotReachThePort : Prop :=
  ∀ (off off' : Offset) (v : Word) (s : State), off.extractLsb' 2 6 = off'.extractLsb' 2 6 →
    transact (.read off) s = transact (.read off') s ∧ transact (.write off v) s = transact (.write off' v) s

/-- R31, R32, R34: the STATUS register, bit by bit, with MATCH 1 exactly when CRC_VALUE equals CRC_EXPECT, the codes of
R20, and its formula; a write to it is ignored. -/
def Obligations.StatusBits : Prop :=
  ∀ s : State,
    (s.status.extractLsb' 0 2 = match s.opState with | .idle => 0#2 | .parse => 1#2 | .ser => 2#2) ∧
    (s.status.extractLsb' 2 2 = match s.field with | .len => 0#2 | .type => 1#2 | .data => 2#2 | .crc => 3#2) ∧
    (s.status.getLsbD 4 = true ↔ s.crcState ^^^ 0xFFFFFFFF#32 = s.crcExpect) ∧
    s.status.extractLsb' 5 3 = 0#3 ∧
    (s.status.extractLsb' 8 3 =
      match s.result with | .none => 0#3 | .ok => 1#3 | .crcMismatch => 2#3 | .truncated => 3#3 | .aborted => 4#3) ∧
    s.status.extractLsb' 11 1 = 0#1 ∧
    (s.status.extractLsb' 12 2 = match s.err with | .none => 0#2 | .illegal => 1#2 | .sequence => 2#2) ∧
    s.status.extractLsb' 14 18 = 0#18 ∧
    (∀ v, transact (.write 0x04#8 v) s = .next s)

/-- R91 to R97: TYPE_FLAGS bit by bit: the four property bits are bit 5 of the four type bytes, ALPHA says that all four
bytes are ASCII letters, VALID is ALPHA and not RESERVED; the other bits read 0. It is read at offset 0x10 as a function of
TYPE, and a write there is ignored. -/
def Obligations.TypeFlagsBits : Prop :=
  (∀ (s : State) (v : Word), transact (.read 0x10#8) s = .next { s with reads := s.reads ++ [typeFlags s.chunkType] } ∧
    transact (.write 0x10#8 v) s = .next s) ∧
  ∀ b0 b1 b2 b3 : Byte,
    let f := typeFlags (b0 ++ b1 ++ b2 ++ b3)
    let letter := fun b : Byte => (0x41#8 ≤ b ∧ b ≤ 0x5A#8) ∨ (0x61#8 ≤ b ∧ b ≤ 0x7A#8)
    f.getLsbD 0 = b0.getLsbD 5 ∧ f.getLsbD 1 = b1.getLsbD 5 ∧ f.getLsbD 2 = b2.getLsbD 5 ∧
    f.getLsbD 3 = b3.getLsbD 5 ∧
    (f.getLsbD 4 = true ↔ letter b0 ∧ letter b1 ∧ letter b2 ∧ letter b3) ∧
    (f.getLsbD 5 = true ↔ (letter b0 ∧ letter b1 ∧ letter b2 ∧ letter b3) ∧ b2.getLsbD 5 = false) ∧
    f.extractLsb' 6 26 = 0#26

/-- R10, R52: `byte(v, k)` for k in 0..3, and the big-endian assembly of four bytes gives the word back. -/
def Obligations.BigEndianBytes : Prop :=
  (∀ b0 b1 b2 b3 : Byte,
    byteOf (b0 ++ b1 ++ b2 ++ b3) 0#32 = b0 ∧ byteOf (b0 ++ b1 ++ b2 ++ b3) 1#32 = b1 ∧
    byteOf (b0 ++ b1 ++ b2 ++ b3) 2#32 = b2 ∧ byteOf (b0 ++ b1 ++ b2 ++ b3) 3#32 = b3 ∧
    bigEndian [b0, b1, b2, b3] = b0 ++ b1 ++ b2 ++ b3) ∧
  (∀ v : Word, bigEndian (wordBytes v) = v)

/-! ## Writes (44_control.md) -/

/-- R161: a write to a read-only or reserved offset has no effect at all. -/
def Obligations.IgnoredWrites : Prop :=
  ∀ (off : Offset) (v : Word) (s : State),
    (off = 0x04#8 ∨ off = 0x10#8 ∨ off = 0x18#8 ∨ off = 0x1C#8 ∨ off = 0x20#8 ∨ off = 0x24#8 ∨ off = 0x28#8 ∨
      0x2C#8 ≤ off) →
    transact (.write off v) s = .next s

/-- R163, R164, R165: a write to LENGTH, TYPE or CRC_EXPECT is accepted in IDLE, any 32-bit value, and refused with
SEQUENCE in PARSE and SER with the register unchanged; after an accepted write LENGTH reads as written and TYPE_FLAGS
follows TYPE at once; with the example of R165. -/
def Obligations.ConfigurationWrites : Prop :=
  ∀ (v : Word) (s : State),
    (s.opState = .idle →
      transact (.write 0x08#8 v) s = .next { s with length := v, err := .none } ∧
      transact (.write 0x0C#8 v) s = .next { s with chunkType := v, err := .none } ∧
      transact (.write 0x14#8 v) s = .next { s with crcExpect := v, err := .none }) ∧
    (s.opState = .parse ∨ s.opState = .ser →
      transact (.write 0x08#8 v) s = .next { s with err := .sequence } ∧
      transact (.write 0x0C#8 v) s = .next { s with err := .sequence } ∧
      transact (.write 0x14#8 v) s = .next { s with err := .sequence }) ∧
    (s.opState = .idle →
      transactAll [.write 0x08#8 v, .read 0x08#8] s =
        .next { s with length := v, err := .none, reads := s.reads ++ [v] } ∧
      transactAll [.write 0x0C#8 v, .read 0x10#8] s =
        .next { s with chunkType := v, err := .none, reads := s.reads ++ [typeFlags v] }) ∧
    transactAll [.write 0x14#8 1#32, .read 0x04#8] State.reset =
      .next { State.reset with crcExpect := 1#32, reads := [0x00000000#32] }

/-- R168: a legal command is accepted exactly in the states of the table, where ERR becomes NONE; in any other state it
sets ERR to SEQUENCE and changes nothing else; the same holds of the three configuration writes, accepted in IDLE only. -/
def Obligations.AcceptanceTable : Prop :=
  (∀ (i : Instr) (s : State),
    (s.opState ∈ (match i with
      | .nop => [OpState.idle, OpState.parse, OpState.ser]
      | .crcInit => [OpState.idle]
      | .crcFeed _ => [OpState.idle]
      | .parseBegin => [OpState.idle]
      | .parseFeed _ => [OpState.parse]
      | .parseEnd => [OpState.parse]
      | .serBegin => [OpState.idle]
      | .serStep _ => [OpState.ser]
      | .abort => [OpState.idle, OpState.parse, OpState.ser]) ↔ acceptedIn i s.opState = true) ∧
    (acceptedIn i s.opState = true → ∃ t, exec i s = .next t ∧ t.err = .none) ∧
    (acceptedIn i s.opState = false → exec i s = .next { s with err := .sequence })) ∧
  (∀ (off : Offset) (v : Word) (s : State), off = 0x08#8 ∨ off = 0x0C#8 ∨ off = 0x14#8 →
    (s.opState = .idle → ∃ t, transact (.write off v) s = .next t ∧ t.err = .none) ∧
    (s.opState ≠ .idle → transact (.write off v) s = .next { s with err := .sequence }))

/-- R30: ERR after each transaction: NONE when a write to CMD, LENGTH, TYPE or CRC_EXPECT was accepted, ILLEGAL when a
command word did not decode, SEQUENCE when the command or write was not allowed in the current STATE; writes to other
offsets and all reads leave it unchanged. -/
def Obligations.ErrReportsTheMostRecentWrite : Prop :=
  ∀ (x : Transaction) (s : State), ∃ u, transact x s = .next u ∧
    (∀ w, x = .write 0x00#8 w → (∀ i, decode w ≠ .ok i) → u.err = .illegal) ∧
    (∀ w i, x = .write 0x00#8 w → decode w = .ok i →
      u.err = if acceptedIn i s.opState then .none else .sequence) ∧
    (∀ off v, x = .write off v → off = 0x08#8 ∨ off = 0x0C#8 ∨ off = 0x14#8 →
      u.err = if s.opState = .idle then .none else .sequence) ∧
    (∀ off v, x = .write off v → regAt off ≠ .cmd → regAt off ≠ .length → regAt off ≠ .chunkType →
      regAt off ≠ .crcExpect → u.err = s.err) ∧
    (∀ off, x = .read off → u.err = s.err)

/-- R180: a refused write changes nothing but ERR: whenever a write to CMD, LENGTH, TYPE or CRC_EXPECT leaves an error
code, the rest of the state is as it was. -/
def Obligations.RefusedWritesChangeOnlyErr : Prop :=
  ∀ (x : Transaction) (s u : State), ReportsInErr x → transact x s = .next u → u.err ≠ .none →
    u = { s with err := u.err }

/-- R185: decode is checked first, so a word that is illegal in one STATE is illegal in every STATE and a legal word never
reports ILLEGAL; a refused command never changes RESULT; a PARSE_FEED never sets TRUNCATED or ABORTED. -/
def Obligations.DecodeIsCheckedBeforeState : Prop :=
  (∀ (w : Word) (s s' : State), ∃ t t', transact (.write 0x00#8 w) s = .next t ∧
    transact (.write 0x00#8 w) s' = .next t' ∧ (t.err = .illegal ↔ t'.err = .illegal) ∧
    (t.err = .illegal ↔ ∀ i, decode w ≠ .ok i) ∧ (t.err ≠ .none → t.result = s.result)) ∧
  (∀ (b : Byte) (s : State), ∃ t, exec (.parseFeed b) s = .next t ∧
    (t.result = s.result ∨ t.result = .ok ∨ t.result = .crcMismatch))

/-! ## The commands (41_crc.md, 42_parser.md, 43_serializer.md, 44_control.md) -/

/-- R166: NOP. -/
def Obligations.NopCommand : Prop :=
  decode 0x00000000#32 = .ok .nop ∧
  (∀ s : State, exec .nop s = .next { s with err := .none }) ∧
  (∀ (w : Word) (s : State), w.extractLsb' 0 4 = 0#4 → w ≠ 0#32 →
    transact (.write 0x00#8 w) s = .next { s with err := .illegal })

/-- R104: CRC_INIT. -/
def Obligations.CrcInitCommand : Prop :=
  decode 0x00000001#32 = .ok .crcInit ∧
  (∀ s : State, s.opState = .idle → exec .crcInit s = .next { s with crcState := 0xFFFFFFFF#32, err := .none }) ∧
  (∀ s : State, s.opState = .parse ∨ s.opState = .ser → exec .crcInit s = .next { s with err := .sequence }) ∧
  (∀ (w : Word) (s : State), w.extractLsb' 0 4 = 1#4 → w ≠ 1#32 →
    transact (.write 0x00#8 w) s = .next { s with err := .illegal }) ∧
  (∀ s : State, s.opState = .idle → ∃ t, exec .crcInit s = .next t ∧
    readReg .crcValue t = 0x00000000#32 ∧ readReg .crcRaw t = 0xFFFFFFFF#32)

/-- R105: CRC_FEED, with the trace of its example. -/
def Obligations.CrcFeedCommand : Prop :=
  (∀ b : Byte, decode (0#16 ++ b ++ 0x02#8) = .ok (.crcFeed b)) ∧
  (∀ (b : Byte) (s : State), s.opState = .idle →
    exec (.crcFeed b) s = .next { s with crcState := crcByte s.crcState b, err := .none }) ∧
  (∀ (b : Byte) (s : State), s.opState = .parse ∨ s.opState = .ser →
    exec (.crcFeed b) s = .next { s with err := .sequence }) ∧
  (∀ (w : Word) (s : State), w.extractLsb' 0 4 = 2#4 → w.extractLsb' 4 4 ≠ 0#4 ∨ w.extractLsb' 16 16 ≠ 0#16 →
    transact (.write 0x00#8 w) s = .next { s with err := .illegal }) ∧
  crcByte 0xFFFFFFFF#32 0x00#8 = 0x2DFD1072#32 ∧ crcByte 0xFFFFFFFF#32 0x49#8 = 0x22FDE946#32 ∧
  crc32 [0x49#8, 0x45#8, 0x4E#8, 0x44#8] = 0xAE426082#32

/-- R121: PARSE_BEGIN, with its example. -/
def Obligations.ParseBeginCommand : Prop :=
  decode 0x00000003#32 = .ok .parseBegin ∧
  (∀ s : State, s.opState = .idle → exec .parseBegin s = .next { s with
    opState := .parse, field := .len, count := 0#32, length := 0#32, chunkType := 0#32, crcExpect := 0#32,
    crcState := 0xFFFFFFFF#32, outByte := 0x00#8, result := .none, err := .none }) ∧
  (∀ s : State, s.opState = .parse ∨ s.opState = .ser → exec .parseBegin s = .next { s with err := .sequence }) ∧
  (∀ (w : Word) (s : State), w.extractLsb' 0 4 = 3#4 → w ≠ 3#32 →
    transact (.write 0x00#8 w) s = .next { s with err := .illegal }) ∧
  (∀ s : State, s.opState = .idle → ∃ t, exec .parseBegin s = .next t ∧
    readReg .status t = 0x00000011#32 ∧ readReg .count t = 0#32)

/-- R122: PARSE_FEED, field by field, with COUNT before it telling whether the field ends. The byte that ends the CRC
field completes the frame (R123). After the fourth byte of a field its register holds the field's value, big-endian; with
the rule's example. -/
def Obligations.ParseFeedCommand : Prop :=
  (∀ b : Byte, decode (0#16 ++ b ++ 0x04#8) = .ok (.parseFeed b)) ∧
  (∀ (b : Byte) (s : State), s.opState = .parse → s.field = .len →
    exec (.parseFeed b) s = .next { s with
      outByte := b, err := .none, length := (s.length <<< 8) ||| (0#24 ++ b),
      field := if s.count = 3#32 then .type else .len,
      count := if s.count = 3#32 then 0#32 else s.count + 1#32 }) ∧
  (∀ (b : Byte) (s : State), s.opState = .parse → s.field = .type →
    exec (.parseFeed b) s = .next { s with
      outByte := b, err := .none, chunkType := (s.chunkType <<< 8) ||| (0#24 ++ b), crcState := crcByte s.crcState b,
      field := if s.count = 3#32 then (if s.length = 0#32 then .crc else .data) else .type,
      count := if s.count = 3#32 then 0#32 else s.count + 1#32 }) ∧
  (∀ (b : Byte) (s : State), s.opState = .parse → s.field = .data →
    exec (.parseFeed b) s = .next { s with
      outByte := b, err := .none, crcState := crcByte s.crcState b,
      field := if s.count = s.length - 1#32 then .crc else .data,
      count := if s.count = s.length - 1#32 then 0#32 else s.count + 1#32 }) ∧
  (∀ (b : Byte) (s : State), s.opState = .parse → s.field = .crc → s.count ≠ 3#32 →
    exec (.parseFeed b) s = .next { s with
      outByte := b, err := .none, crcExpect := (s.crcExpect <<< 8) ||| (0#24 ++ b), count := s.count + 1#32 }) ∧
  (∀ (b : Byte) (s : State), s.opState = .parse → s.field = .crc → s.count = 3#32 →
    ∀ e, e = (s.crcExpect <<< 8) ||| (0#24 ++ b) →
    exec (.parseFeed b) s = .next { s with
      outByte := b, err := .none, crcExpect := e, opState := .idle, field := .len, count := 0#32,
      result := if e = s.crcState ^^^ 0xFFFFFFFF#32 then .ok else .crcMismatch }) ∧
  (∀ (b : Byte) (s : State), s.opState = .idle ∨ s.opState = .ser →
    exec (.parseFeed b) s = .next { s with err := .sequence }) ∧
  (∀ (w : Word) (s : State), w.extractLsb' 0 4 = 4#4 → w.extractLsb' 4 4 ≠ 0#4 ∨ w.extractLsb' 16 16 ≠ 0#16 →
    transact (.write 0x00#8 w) s = .next { s with err := .illegal }) ∧
  (∀ (a b c d : Byte) (s : State), s.opState = .parse → s.count = 0#32 → s.field ≠ .data →
    ∃ t, transactAll (feedAll [a, b, c, d]) s = .next t ∧
      (s.field = .len → t.length = a ++ b ++ c ++ d) ∧ (s.field = .type → t.chunkType = a ++ b ++ c ++ d) ∧
      (s.field = .crc → t.crcExpect = a ++ b ++ c ++ d)) ∧
  (∀ s : State, s.opState = .idle → ∃ t, transactAll (parseRun [0x00#8, 0x00#8, 0x00#8, 0x0D#8]) s = .next t ∧
    t.length = 13#32 ∧ t.field = .type ∧ t.count = 0#32)

/-- R122: after the fourth byte of a field the register of that field holds the field's value, big-endian: LENGTH after
the first four bytes of a parse, TYPE after the next four; FIELD is then DATA, or CRC where LENGTH is 0. -/
def Obligations.ParserAssemblesFieldsBigEndian : Prop :=
  ∀ (s : State) (l0 l1 l2 l3 t0 t1 t2 t3 : Byte), s.opState = .idle →
    (∃ u, transactAll (parseRun [l0, l1, l2, l3]) s = .next u ∧
      u.length = l0 ++ l1 ++ l2 ++ l3 ∧ u.field = .type ∧ u.count = 0#32 ∧ u.opState = .parse) ∧
    (∃ u, transactAll (parseRun [l0, l1, l2, l3, t0, t1, t2, t3]) s = .next u ∧
      u.length = l0 ++ l1 ++ l2 ++ l3 ∧ u.chunkType = t0 ++ t1 ++ t2 ++ t3 ∧ u.crcState = crcRaw [t0, t1, t2, t3] ∧
      u.field = (if l0 ++ l1 ++ l2 ++ l3 = 0#32 then .crc else .data) ∧ u.count = 0#32 ∧ u.opState = .parse ∧
      u.outByte = t3)

/-- R123: the PARSE_FEED that consumes the fourth CRC byte ends the parse with the verdict: OK when the stored CRC equals
CRC_VALUE, CRC_MISMATCH otherwise; LENGTH and TYPE are kept, CRC_EXPECT holds the stored CRC, CRC_VALUE still reads the
computed one, and MATCH is 1 exactly when RESULT is OK; with the examples of the IEND frame. -/
def Obligations.CompletionGivesTheVerdict : Prop :=
  (∀ (b : Byte) (s : State), s.opState = .parse → s.field = .crc → s.count = 3#32 →
    ∃ t, exec (.parseFeed b) s = .next t ∧
      t.result = (if (s.crcExpect <<< 8) ||| (0#24 ++ b) = s.crcState ^^^ 0xFFFFFFFF#32 then .ok else .crcMismatch) ∧
      t.opState = .idle ∧ t.field = .len ∧ t.count = 0#32 ∧ t.length = s.length ∧ t.chunkType = s.chunkType ∧
      t.crcExpect = (s.crcExpect <<< 8) ||| (0#24 ++ b) ∧ readReg .crcValue t = readReg .crcValue s ∧
      (t.status.getLsbD 4 = true ↔ t.result = .ok)) ∧
  (∀ s : State, s.opState = .idle → ∃ t,
    transactAll (parseRun [0x00#8, 0x00#8, 0x00#8, 0x00#8, 0x49#8, 0x45#8, 0x4E#8, 0x44#8, 0xAE#8, 0x42#8, 0x60#8,
      0x82#8]) s = .next t ∧
    t.result = .ok ∧ t.opState = .idle ∧ t.length = 0#32 ∧ t.chunkType = 0x49454E44#32) ∧
  (∀ s : State, s.opState = .idle → ∃ t,
    transactAll (parseRun [0x00#8, 0x00#8, 0x00#8, 0x00#8, 0x49#8, 0x45#8, 0x4E#8, 0x44#8, 0xAE#8, 0x42#8, 0x60#8,
      0x83#8]) s = .next t ∧ t.result = .crcMismatch)

/-- R125: PARSE_END, with its example. -/
def Obligations.ParseEndCommand : Prop :=
  decode 0x00000005#32 = .ok .parseEnd ∧
  (∀ s : State, s.opState = .parse →
    exec .parseEnd s = .next { s with result := .truncated, opState := .idle, err := .none }) ∧
  (∀ s : State, s.opState = .idle ∨ s.opState = .ser → exec .parseEnd s = .next { s with err := .sequence }) ∧
  (∀ (w : Word) (s : State), w.extractLsb' 0 4 = 5#4 → w ≠ 5#32 →
    transact (.write 0x00#8 w) s = .next { s with err := .illegal }) ∧
  (∀ s : State, s.opState = .idle → ∃ t,
    transactAll (parseRun [0x00#8, 0x00#8, 0x00#8, 0x10#8, 0x52#8, 0x75#8, 0x53#8, 0x74#8] ++
      [.write 0x00#8 0x00000005#32]) s = .next t ∧
    t.result = .truncated ∧ t.field = .data ∧ t.count = 0#32 ∧ t.length = 16#32 ∧ t.opState = .idle)

/-- R141: SER_BEGIN, with its example; while STATE is SER, writes to LENGTH and TYPE are refused. -/
def Obligations.SerBeginCommand : Prop :=
  decode 0x00000006#32 = .ok .serBegin ∧
  (∀ s : State, s.opState = .idle → exec .serBegin s = .next { s with
    opState := .ser, field := .len, count := 0#32, crcState := 0xFFFFFFFF#32, outByte := 0x00#8, result := .none,
    err := .none }) ∧
  (∀ s : State, s.opState = .parse ∨ s.opState = .ser → exec .serBegin s = .next { s with err := .sequence }) ∧
  (∀ (w : Word) (s : State), w.extractLsb' 0 4 = 6#4 → w ≠ 6#32 →
    transact (.write 0x00#8 w) s = .next { s with err := .illegal }) ∧
  (∃ t, transactAll [.write 0x08#8 0#32, .write 0x0C#8 0x49454E44#32, .write 0x00#8 0x00000006#32] State.reset = .next t ∧
    readReg .status t = 0x00000012#32) ∧
  (∀ (v : Word) (s : State), s.opState = .ser →
    transact (.write 0x08#8 v) s = .next { s with err := .sequence } ∧
    transact (.write 0x0C#8 v) s = .next { s with err := .sequence })

/-- R142, R144: SER_STEP, field by field; the operand is read only in DATA, and `SER.STEP` without one means 0x00; the step
that outputs the fourth CRC byte ends the serialization with RESULT = OK; with the example of R142. `byte(v, k)` is R10's
for k in 0..3 (BigEndianBytes). -/
def Obligations.SerStepCommand : Prop :=
  (∀ d : Byte, decode (0#16 ++ d ++ 0x07#8) = .ok (.serStep d)) ∧
  (∀ (d : Byte) (s : State), s.opState = .ser → s.field = .len →
    exec (.serStep d) s = .next { s with
      outByte := byteOf s.length s.count, err := .none,
      field := if s.count = 3#32 then .type else .len,
      count := if s.count = 3#32 then 0#32 else s.count + 1#32 }) ∧
  (∀ (d : Byte) (s : State), s.opState = .ser → s.field = .type →
    exec (.serStep d) s = .next { s with
      outByte := byteOf s.chunkType s.count, err := .none,
      crcState := crcByte s.crcState (byteOf s.chunkType s.count),
      field := if s.count = 3#32 then (if s.length = 0#32 then .crc else .data) else .type,
      count := if s.count = 3#32 then 0#32 else s.count + 1#32 }) ∧
  (∀ (d : Byte) (s : State), s.opState = .ser → s.field = .data →
    exec (.serStep d) s = .next { s with
      outByte := d, err := .none, crcState := crcByte s.crcState d,
      field := if s.count = s.length - 1#32 then .crc else .data,
      count := if s.count = s.length - 1#32 then 0#32 else s.count + 1#32 }) ∧
  (∀ (d : Byte) (s : State), s.opState = .ser → s.field = .crc →
    exec (.serStep d) s = .next { s with
      outByte := byteOf (s.crcState ^^^ 0xFFFFFFFF#32) s.count, err := .none,
      opState := if s.count = 3#32 then .idle else .ser,
      field := if s.count = 3#32 then .len else .crc,
      count := if s.count = 3#32 then 0#32 else s.count + 1#32,
      result := if s.count = 3#32 then .ok else s.result }) ∧
  (∀ (d : Byte) (s : State), s.opState = .idle ∨ s.opState = .parse →
    exec (.serStep d) s = .next { s with err := .sequence }) ∧
  (∀ (d d' : Byte) (s : State), s.field ≠ .data → exec (.serStep d) s = exec (.serStep d') s) ∧
  (∀ (w : Word) (s : State), w.extractLsb' 0 4 = 7#4 → w.extractLsb' 4 4 ≠ 0#4 ∨ w.extractLsb' 16 16 ≠ 0#16 →
    transact (.write 0x00#8 w) s = .next { s with err := .illegal }) ∧
  parseLine "SER.STEP".toList = some (.command (.serStep 0x00#8)) ∧
  (∀ s : State, s.opState = .idle → ∃ t,
    transactAll (serializeRun 0#32 0x49454E44#32 (List.replicate 12 0x00#8)) s = .next t ∧
    t.reads = s.reads ++ [0x00#32, 0x00#32, 0x00#32, 0x00#32, 0x49#32, 0x45#32, 0x4E#32, 0x44#32, 0xAE#32, 0x42#32,
      0x60#32, 0x82#32] ∧
    t.result = .ok ∧ t.opState = .idle)

/-- R167: ABORT, with its example. -/
def Obligations.AbortCommand : Prop :=
  decode 0x00000008#32 = .ok .abort ∧
  (∀ s : State, s.opState = .parse ∨ s.opState = .ser →
    exec .abort s = .next { s with result := .aborted, opState := .idle, err := .none }) ∧
  (∀ s : State, s.opState = .idle → exec .abort s = .next { s with err := .none }) ∧
  (∀ s : State, s.opState = .idle → ∃ t,
    transactAll (parseRun [0x00#8] ++ [.write 0x00#8 0x00000008#32]) s = .next t ∧
    t.result = .aborted ∧ t.opState = .idle ∧ t.field = .len ∧ t.count = 1#32)

/-! ## Frames: what each command leaves unchanged -/

/-- The frame of every command: a register is changed only by the commands the rules name for it, in the fields they name
(R104, R105, R121 to R125, R141 to R143, R166, R167); no command touches what the host has still to do or has read. -/
def Obligations.CommandsChangeOnlyTheirRegisters : Prop :=
  ∀ (i : Instr) (s t : State), exec i s = .next t →
    t.pending = s.pending ∧ t.reads = s.reads ∧
    (t.length ≠ s.length → i = .parseBegin ∨ ∃ b, i = .parseFeed b ∧ s.field = .len) ∧
    (t.chunkType ≠ s.chunkType → i = .parseBegin ∨ ∃ b, i = .parseFeed b ∧ s.field = .type) ∧
    (t.crcExpect ≠ s.crcExpect → i = .parseBegin ∨ ∃ b, i = .parseFeed b ∧ s.field = .crc) ∧
    (t.crcState ≠ s.crcState → i = .crcInit ∨ i = .parseBegin ∨ i = .serBegin ∨ (∃ b, i = .crcFeed b) ∨
      ((s.field = .type ∨ s.field = .data) ∧ ((∃ b, i = .parseFeed b) ∨ ∃ d, i = .serStep d))) ∧
    (t.outByte ≠ s.outByte → i = .parseBegin ∨ i = .serBegin ∨ (∃ b, i = .parseFeed b) ∨ ∃ d, i = .serStep d) ∧
    (t.field ≠ s.field ∨ t.count ≠ s.count →
      i = .parseBegin ∨ i = .serBegin ∨ (∃ b, i = .parseFeed b) ∨ ∃ d, i = .serStep d) ∧
    (t.opState ≠ s.opState ∨ t.result ≠ s.result →
      i = .parseBegin ∨ i = .serBegin ∨ i = .parseEnd ∨ i = .abort ∨
        (s.field = .crc ∧ s.count = 3#32 ∧ ((∃ b, i = .parseFeed b) ∨ ∃ d, i = .serStep d)))

/-- R21: how STATE is entered and left: PARSE by PARSE_BEGIN in IDLE, SER by SER_BEGIN in IDLE; PARSE is left by the last
CRC byte, PARSE_END or ABORT, SER by the last CRC byte or ABORT, each by Reset (R200) too, and always to IDLE. -/
def Obligations.HowStateIsEnteredAndLeft : Prop :=
  ∀ (x : Transaction) (s : State), ∃ u, transact x s = .next u ∧
    (u.opState = .parse → s.opState ≠ .parse → s.opState = .idle ∧ Issues x .parseBegin) ∧
    (u.opState = .ser → s.opState ≠ .ser → s.opState = .idle ∧ Issues x .serBegin) ∧
    (s.opState = .parse → u.opState ≠ .parse → u.opState = .idle ∧
      (x = .reset ∨ Issues x .parseEnd ∨ Issues x .abort ∨
        (s.field = .crc ∧ s.count = 3#32 ∧ ∃ b, Issues x (.parseFeed b)))) ∧
    (s.opState = .ser → u.opState ≠ .ser → u.opState = .idle ∧
      (x = .reset ∨ Issues x .abort ∨ (s.field = .crc ∧ s.count = 3#32 ∧ ∃ d, Issues x (.serStep d))))

/-- R29: only PARSE_BEGIN, SER_BEGIN, the last byte of a frame, PARSE_END, ABORT in PARSE or SER, and Reset write RESULT,
each with the value R181 gives. -/
def Obligations.WhoWritesResult : Prop :=
  ∀ (x : Transaction) (s : State), ∃ u, transact x s = .next u ∧
    (u.result ≠ s.result →
      (u.result = .none ∧ (x = .reset ∨ (s.opState = .idle ∧ (Issues x .parseBegin ∨ Issues x .serBegin)))) ∨
      (u.result = .truncated ∧ s.opState = .parse ∧ Issues x .parseEnd) ∨
      (u.result = .aborted ∧ s.opState ≠ .idle ∧ Issues x .abort) ∨
      ((u.result = .ok ∨ u.result = .crcMismatch) ∧ s.opState = .parse ∧ s.field = .crc ∧ s.count = 3#32 ∧
        ∃ b, Issues x (.parseFeed b)) ∨
      (u.result = .ok ∧ s.opState = .ser ∧ s.field = .crc ∧ s.count = 3#32 ∧ ∃ d, Issues x (.serStep d)))

/-- R186: RESULT persists after a frame has ended until the next PARSE_BEGIN, SER_BEGIN or Reset; NOP clears ERR with no
other effect; and no error leaves the block stuck: after an ABORT the block is in IDLE and a frame can be opened. -/
def Obligations.ResultPersistsAndNothingIsStuck : Prop :=
  (∀ (x : Transaction) (s : State), s.opState = .idle → x ≠ .reset → ¬ Issues x .parseBegin → ¬ Issues x .serBegin →
    ∃ u, transact x s = .next u ∧ u.result = s.result ∧ u.opState = .idle) ∧
  (∀ s : State, transact (.write 0x00#8 0x00000000#32) s = .next { s with err := .none }) ∧
  (∀ s : State, ∃ t, transact (.write 0x00#8 0x00000008#32) s = .next t ∧ t.opState = .idle ∧ t.err = .none ∧
    (∃ u, transact (.write 0x00#8 0x00000003#32) t = .next u ∧ u.opState = .parse ∧ u.err = .none) ∧
    (∃ u, transact (.write 0x00#8 0x00000006#32) t = .next u ∧ u.opState = .ser ∧ u.err = .none))

/-- R107, R109: during a frame the CRC engine takes exactly the type and data bytes: CRC_STATE changes only at a PARSE_FEED
or SER_STEP in TYPE or DATA, by that byte, or at Reset; CRC_INIT, CRC_FEED and the BEGINs leave it alone. -/
def Obligations.FrameOwnsTheCrcEngine : Prop :=
  ∀ (x : Transaction) (s : State), s.opState ≠ .idle → x ≠ .reset → ∃ u, transact x s = .next u ∧
    (u.crcState ≠ s.crcState → (s.field = .type ∨ s.field = .data) ∧
      ((s.opState = .parse ∧ ∃ b, Issues x (.parseFeed b)) ∨ (s.opState = .ser ∧ ∃ d, Issues x (.serStep d)))) ∧
    ((s.field = .type ∨ s.field = .data) → s.opState = .parse → (∃ b, Issues x (.parseFeed b)) →
      u.crcState = crcByte s.crcState u.outByte) ∧
    ((s.field = .type ∨ s.field = .data) → s.opState = .ser → (∃ d, Issues x (.serStep d)) →
      u.crcState = crcByte s.crcState u.outByte)

/-- R129: after a frame has ended, LENGTH, TYPE, CRC_EXPECT, CRC_STATE and OUT_BYTE stay until the next PARSE_BEGIN, host
write, standalone CRC command (CRC_STATE only), SER_BEGIN (CRC_STATE and OUT_BYTE, R141) or Reset. -/
def Obligations.ParsedValuesStay : Prop :=
  ∀ (x : Transaction) (s : State), s.opState = .idle → x ≠ .reset → ¬ Issues x .parseBegin →
    ∃ u, transact x s = .next u ∧
      (u.length ≠ s.length → ∃ off v, x = .write off v ∧ slotOf off = 2#6) ∧
      (u.chunkType ≠ s.chunkType → ∃ off v, x = .write off v ∧ slotOf off = 3#6) ∧
      (u.crcExpect ≠ s.crcExpect → ∃ off v, x = .write off v ∧ slotOf off = 5#6) ∧
      (u.crcState ≠ s.crcState → Issues x .crcInit ∨ Issues x .serBegin ∨ ∃ b, Issues x (.crcFeed b)) ∧
      (u.outByte ≠ s.outByte → Issues x .serBegin)

/-! ## Invariants (10_state.md R42, 42_parser.md R124) -/

/-- The invariant of R42, with what a parse has not come to yet, holds at reset. -/
def Obligations.FrameInvariantAtReset : Prop := FrameInvariant State.reset

/-- Every step keeps the invariant. -/
def Obligations.StepKeepsFrameInvariant : Prop :=
  ∀ s t : State, FrameInvariant s → step s = .next t → FrameInvariant t

/-- R42: in every state reachable from Reset by any sequence of transactions, (a) STATE is not 3, RESULT not 5, 6 or 7 and
ERR not 3, as STATUS reads them, (b) COUNT is bounded, (c) RESULT is NONE during a frame, and (d) the register of the field
being parsed holds only the bytes consumed. -/
def Obligations.ReachableStatesMeetTheInvariants : Prop :=
  ∀ ts : List Transaction, ∃ s, transactAll ts State.reset = .next s ∧
    s.status.extractLsb' 0 2 ≠ 3#2 ∧ s.status.extractLsb' 8 3 < 5#3 ∧ s.status.extractLsb' 12 2 ≠ 3#2 ∧
    (s.opState = .parse ∨ s.opState = .ser →
      (s.field = .len ∨ s.field = .type ∨ s.field = .crc → s.count < 4#32) ∧
      (s.field = .data → s.count < s.length ∧ 1#32 ≤ s.length) ∧ s.result = .none) ∧
    (s.opState = .parse →
      (s.field = .len → s.length.toNat < 2 ^ (8 * s.count.toNat)) ∧
      (s.field = .type → s.chunkType.toNat < 2 ^ (8 * s.count.toNat)) ∧
      (s.field = .crc → s.crcExpect.toNat < 2 ^ (8 * s.count.toNat)))

/-- R124: COUNT never overflows and `LENGTH - 1` never wraps: in a frame that meets the invariant COUNT is at most 3
outside DATA and at most LENGTH - 1 in DATA, LENGTH is at least 1 there, and a frame byte either adds exactly 1 to COUNT or
sets it to 0. -/
def Obligations.CountNeverOverflows : Prop :=
  ∀ (s t : State) (i : Instr), ReachableInvariant s → s.opState ≠ .idle →
    ((∃ b, i = .parseFeed b) ∧ s.opState = .parse ∨ (∃ d, i = .serStep d) ∧ s.opState = .ser) →
    exec i s = .next t →
      (s.field ≠ .data → s.count.toNat ≤ 3) ∧
      (s.field = .data → 1 ≤ s.length.toNat ∧ (s.length - 1#32).toNat = s.length.toNat - 1 ∧
        s.count.toNat ≤ s.length.toNat - 1 ∧ s.count.toNat ≤ 2 ^ 32 - 2) ∧
      (t.count.toNat = s.count.toNat + 1 ∨ t.count = 0#32) ∧
      (t.count = 0#32 ↔ (s.field ≠ .data ∧ s.count = 3#32) ∨ (s.field = .data ∧ s.count = s.length - 1#32))

/-! ## CRC-32 (41_crc.md) -/

/-- R101, the table form: with `T[n] = crc_byte(0, n)`, `crc_byte(c, b) = (c >> 8) XOR T[(c XOR zext_32(b))[7:0]]`. -/
def Obligations.CrcTableForm : Prop :=
  ∀ (c : Word) (b : Byte),
    crcByte c b = (c >>> 8) ^^^ crcByte 0#32 ((c ^^^ (0#24 ++ b)).extractLsb' 0 8)

/-- R102: after CRC_INIT and one CRC_FEED for each byte of `m`, CRC_STATE is crc_raw(m) and a Read of CRC_VALUE returns
CRC32(m); nothing but CRC_STATE and ERR has changed; the CRC of no bytes is 0; and a further byte is one crc_byte. -/
def Obligations.FeedingBytesComputesCrc32 : Prop :=
  (∀ (m : List Byte) (s : State), s.opState = .idle →
    transactAll ([.write 0x00#8 (encode .crcInit)] ++ m.map (fun b => .write 0x00#8 (encode (.crcFeed b))) ++
        [.read 0x18#8]) s =
      .next { s with crcState := crcRaw m, err := .none, reads := s.reads ++ [crc32 m] }) ∧
  crc32 [] = 0x00000000#32 ∧ crcRaw [] = 0xFFFFFFFF#32 ∧
  (∀ (m : List Byte) (b : Byte), crcRaw (m ++ [b]) = crcByte (crcRaw m) b) ∧
  (∀ m : List Byte, crc32 m = crcRaw m ^^^ 0xFFFFFFFF#32)

/-- R103: CRC32(m) is the bit reversal of the MSB-first remainder of the bit-reversed bytes of `m`, complemented. -/
def Obligations.CrcMsbFirstForm : Prop :=
  ∀ m : List Byte, crc32 m = (crcMsbRemainder m).reverse ^^^ 0xFFFFFFFF#32

/-- R106: the checker: after CRC_INIT and the bytes of `m`, with `v` written to CRC_EXPECT in IDLE before, between or after
them, MATCH in a Read of STATUS is 1 exactly when CRC32(m) = v; with the rule's example. -/
def Obligations.CheckerMatchesExactlyTheCrc : Prop :=
  (∀ (m n : List Byte) (v : Word) (s : State), s.opState = .idle →
    (∃ t st, transactAll ([commandWrite .crcInit] ++ (m.map fun b => commandWrite (.crcFeed b)) ++ [.write 0x14#8 v] ++
        (n.map fun b => commandWrite (.crcFeed b)) ++ [.read 0x04#8]) s = .next t ∧ t.reads = s.reads ++ [st] ∧
      (st.getLsbD 4 = true ↔ crc32 (m ++ n) = v)) ∧
    (∃ t st, transactAll ([.write 0x14#8 v, commandWrite .crcInit] ++
        (m.map fun b => commandWrite (.crcFeed b)) ++ [.read 0x04#8]) s = .next t ∧ t.reads = s.reads ++ [st] ∧
      (st.getLsbD 4 = true ↔ crc32 m = v))) ∧
  (∃ t, transactAll (checkRun [0x49#8, 0x45#8, 0x4E#8, 0x44#8] 0xAE426082#32) State.reset = .next t ∧
    t.reads = [0x00000010#32])

/-- R108: changing exactly one bit of the type bytes, the data bytes or the CRC field of a correct frame makes the parse
end with CRC_MISMATCH. -/
def Obligations.SingleBitErrorsAreDetected : Prop :=
  ∀ (L T : Word) (data : List Byte) (j : Nat) (k : Fin 8) (s : State), data.length = L.toNat → s.opState = .idle →
    4 ≤ j → j < 12 + L.toNat →
    ∃ t, transactAll (parseRun (flipBit (frameBytes L T data) j k)) s = .next t ∧
      t.opState = .idle ∧ t.result = .crcMismatch ∧ t.err = .none

/-! ## The parser and the serializer as a whole (42_parser.md, 43_serializer.md) -/

/-- R132: the verdict law. With `L` the big-endian value of the first four bytes, a byte string that has a prefix of length
12 + L ends its parse at that prefix's last byte, OK exactly when the stored CRC is the CRC-32 of type and data, and every
byte after it reports SEQUENCE and changes nothing else; a byte string without such a prefix leaves the parse open, and
PARSE_END ends it as TRUNCATED. -/
def Obligations.VerdictLaw : Prop :=
  ∀ (bs : List Byte) (s : State), s.opState = .idle →
    ∃ t, transactAll (parseRun bs) s = .next t ∧
      (4 ≤ bs.length ∧ 12 + (bigEndian (bs.take 4)).toNat ≤ bs.length →
        ∃ u, transactAll (parseRun (bs.take (12 + (bigEndian (bs.take 4)).toNat))) s = .next u ∧
          u.opState = .idle ∧ u.err = .none ∧
          u.result =
            (if bigEndian ((bs.drop (8 + (bigEndian (bs.take 4)).toNat)).take 4) =
                crc32 ((bs.drop 4).take (4 + (bigEndian (bs.take 4)).toNat)) then .ok else .crcMismatch) ∧
          (∀ n, n < 12 + (bigEndian (bs.take 4)).toNat →
            ∃ v, transactAll (parseRun (bs.take n)) s = .next v ∧ v.opState = .parse ∧ v.result = .none) ∧
          (bs.length = 12 + (bigEndian (bs.take 4)).toNat → t = u) ∧
          (12 + (bigEndian (bs.take 4)).toNat < bs.length → t = { u with err := .sequence })) ∧
      (¬ (4 ≤ bs.length ∧ 12 + (bigEndian (bs.take 4)).toNat ≤ bs.length) →
        t.opState = .parse ∧ t.err = .none ∧
        transact (.write 0x00#8 (encode .parseEnd)) t =
          .next { t with opState := .idle, result := .truncated, err := .none })

/-- R203, R120: the host's protocol for one frame: it ends in IDLE with OK, CRC_MISMATCH or TRUNCATED; it ends with OK
exactly when the source begins with a frame, and then LENGTH, TYPE and CRC_EXPECT are that frame's and the bytes left over
are those after it. -/
def Obligations.ParserAcceptsExactlyFrames : Prop :=
  ∀ (source : List Byte) (s : State), s.opState = .idle →
    ∃ t rest, parseOneFrame source s = .next (t, rest) ∧ t.opState = .idle ∧ t.err = .none ∧
      (t.result = .ok ∨ t.result = .crcMismatch ∨ t.result = .truncated) ∧
      (t.result = .ok ↔ ∃ (L T : Word) (data tail : List Byte), data.length = L.toNat ∧
        source = frameBytes L T data ++ tail) ∧
      (∀ (L T : Word) (data tail : List Byte), data.length = L.toNat → source = frameBytes L T data ++ tail →
        t.length = L ∧ t.chunkType = T ∧ t.crcExpect = crc32 (coveredBytes T data) ∧
        t.crcState ^^^ 0xFFFFFFFF#32 = crc32 (coveredBytes T data) ∧ rest = tail)

/-- R140, R146: the output law: LENGTH = L and TYPE = T written, SER_BEGIN, and 12 + L SER_STEPs whose DATA operands are the
data bytes (the other operands being anything, R144) put out the frame byte for byte in OUT_BYTE and end with OK. -/
def Obligations.SerializerPutsOutTheFrame : Prop :=
  ∀ (L T : Word) (operands : List Byte) (s : State), operands.length = 12 + L.toNat → s.opState = .idle →
    ∃ t, transactAll (serializeRun L T operands) s = .next t ∧
      t.reads = s.reads ++ (frameBytes L T ((operands.drop 8).take L.toNat)).map (BitVec.setWidth 32) ∧
      t.opState = .idle ∧ t.result = .ok ∧ t.err = .none ∧ t.length = L ∧ t.chunkType = T ∧
      t.crcExpect = s.crcExpect ∧
      t.crcState ^^^ 0xFFFFFFFF#32 = crc32 (coveredBytes T ((operands.drop 8).take L.toNat))

/-- R147: the round-trip laws. (a) What the serializer puts out parses with OK, the same LENGTH and TYPE, the bytes echoed
in order and CRC_EXPECT = CRC_VALUE = the frame's CRC. (b) A byte string on which the parser ends with OK is put out again
byte for byte by serializing with the LENGTH and TYPE the parse left and its data bytes. -/
def Obligations.ParseAndSerializeRoundTrip : Prop :=
  (∀ (L T : Word) (operands : List Byte) (s : State), operands.length = 12 + L.toNat → s.opState = .idle →
    ∃ t out u, transactAll (serializeRun L T operands) s = .next t ∧
      t.reads = s.reads ++ out.map (BitVec.setWidth 32) ∧
      (out.drop 8).take L.toNat = (operands.drop 8).take L.toNat ∧
      transactAll (parseEchoRun out) t = .next u ∧ u.result = .ok ∧ u.err = .none ∧ u.length = L ∧ u.chunkType = T ∧
      u.reads = t.reads ++ out.map (BitVec.setWidth 32) ∧
      u.crcExpect = crc32 (coveredBytes T ((operands.drop 8).take L.toNat)) ∧
      u.crcState ^^^ 0xFFFFFFFF#32 = crc32 (coveredBytes T ((operands.drop 8).take L.toNat))) ∧
  (∀ (p : List Byte) (s t : State), s.opState = .idle → transactAll (parseRun p) s = .next t → t.result = .ok →
    t.err = .none →
    ∀ operands : List Byte, operands.length = p.length →
      (operands.drop 8).take (p.length - 12) = (p.drop 8).take (p.length - 12) →
      ∃ u, transactAll (commandWrite .serBegin :: stepAll operands) t = .next u ∧
        u.reads = t.reads ++ p.map (BitVec.setWidth 32) ∧ u.opState = .idle ∧ u.result = .ok)
end

