-- ==== Sys2Proof/Laws/Crc.lean ====
section
/-! SUPPORT. The CRC engine as a map on words (41_crc.md R101): a bit, a run of bits and a byte each lose nothing, and
bits are additive over GF(2). -/

namespace Sys2Proof.Machine

/-- Words that agree in bit 0 and in the rest are equal. -/
theorem eq_of_bit0_of_shift {c d : Word} (h0 : c.getLsbD 0 = d.getLsbD 0) (h : c >>> 1 = d >>> 1) : c = d := by
  apply BitVec.eq_of_getLsbD_eq
  intro i hi
  cases i with
  | zero => exact h0
  | succ i => simpa [Nat.add_comm] using congrArg (fun x => x.getLsbD i) h

/-- Bit 31 after one bit of the update says whether the polynomial was added. -/
theorem crcBit_top (c : Word) : (crcBit c).getLsbD 31 = c.getLsbD 0 := by
  have hp : Config.crcPolyReflected.getLsbD 31 = true := by decide
  unfold crcBit
  cases c.getLsbD 0
  · simp
  · simp only [if_true]
    rw [BitVec.getLsbD_xor, hp]
    simp

theorem crcBit_injective {c d : Word} (h : crcBit c = crcBit d) : c = d := by
  have h0 : c.getLsbD 0 = d.getLsbD 0 := by rw [← crcBit_top, ← crcBit_top, h]
  refine eq_of_bit0_of_shift h0 ?_
  unfold crcBit at h
  rw [h0] at h
  split at h
  · simpa using h
  · exact h

theorem crcBits_injective {n : Nat} {c d : Word} (h : crcBits n c = crcBits n d) : c = d := by
  induction n generalizing c d with
  | zero => exact h
  | succ n ih => exact crcBit_injective (ih h)

/-- Two registers that differ still differ after the same byte. -/
theorem crcByte_injective_left {c d : Word} {b : Byte} (h : crcByte c b = crcByte d b) : c = d := by
  simpa using crcBits_injective h

/-- Two bytes that differ leave the register different. -/
theorem crcByte_injective_right {c : Word} {b e : Byte} (h : crcByte c b = crcByte c e) : b = e := by
  have h32 := (BitVec.xor_right_inj c).1 (crcBits_injective h)
  simpa using congrArg (BitVec.setWidth 8) h32

theorem foldl_crcByte_injective (m : List Byte) {c d : Word} (h : m.foldl crcByte c = m.foldl crcByte d) : c = d := by
  induction m generalizing c d with
  | nil => exact h
  | cons b bs ih => exact crcByte_injective_left (ih h)

theorem crcBit_xor (c d : Word) : crcBit (c ^^^ d) = crcBit c ^^^ crcBit d := by
  unfold crcBit
  rw [BitVec.getLsbD_xor, BitVec.ushiftRight_xor_distrib]
  by_cases hc : c.getLsbD 0 <;> by_cases hd : d.getLsbD 0 <;> simp only [hc, hd] <;> simp
  · have e : ∀ a b p : Word, a ^^^ b = a ^^^ p ^^^ (b ^^^ p) := by
      intro a b p
      rw [BitVec.xor_comm b p, ← BitVec.xor_assoc, BitVec.xor_assoc a p p]
      simp
    exact e _ _ _
  · rw [BitVec.xor_assoc, BitVec.xor_comm (d >>> 1), ← BitVec.xor_assoc]
  · rw [BitVec.xor_assoc]

theorem crcBits_xor (n : Nat) (c d : Word) : crcBits n (c ^^^ d) = crcBits n c ^^^ crcBits n d := by
  induction n generalizing c d with
  | zero => rfl
  | succ n ih => simp only [crcBits, crcBit_xor, ih]

/-- Where the low `n` bits are clear, `n` bits of the update only shift. -/
theorem crcBits_of_low_clear (n : Nat) (c : Word) (h : ∀ i, i < n → c.getLsbD i = false) :
    crcBits n c = c >>> n := by
  induction n generalizing c with
  | zero => simp [crcBits]
  | succ n ih =>
    have h1 : crcBit c = c >>> 1 := by
      unfold crcBit
      rw [h 0 (by omega)]
      rfl
    rw [crcBits, h1, ih]
    · rw [← BitVec.shiftRight_add, Nat.add_comm]
    · intro i hi
      rw [BitVec.getLsbD_ushiftRight]
      exact h _ (by omega)

end Sys2Proof.Machine
end

