-- ==== Sys2Proof/Laws/Decode.lean ====
section
/-! SUPPORT. The decoder and the encoder (30_encoding.md R70 to R76): the fields of a packed word, a word is its four
fields, and the command read back from its own word. -/

namespace Sys2Proof

theorem word_eq_fields (w : Word) : w = rsv1Field w ++ imm8Field w ++ rsv0Field w ++ opField w := by
  unfold opField rsv0Field imm8Field rsv1Field
  apply BitVec.eq_of_getLsbD_eq
  intro i hi
  simp only [BitVec.getLsbD_append, BitVec.getLsbD_extractLsb']
  split
  · simp [*]
  · split
    · have : 4 + (i - 4) = i := by omega
      simp [*]
    · split
      · have : 8 + (i - 4 - 4) = i := by omega
        simp [*]
      · have h1 : 16 + (i - 4 - 4 - 8) = i := by omega
        have h2 : i - 4 - 4 - 8 < 16 := by omega
        simp [h1, h2]

@[simp] theorem opField_packWord (op : BitVec 4) (imm : Byte) : opField (packWord op imm) = op := by
  unfold opField packWord
  apply BitVec.eq_of_getLsbD_eq
  intro i hi
  simp only [BitVec.getLsbD_append, BitVec.getLsbD_extractLsb']
  simp [hi]

@[simp] theorem rsv0Field_packWord (op : BitVec 4) (imm : Byte) : rsv0Field (packWord op imm) = 0#4 := by
  unfold rsv0Field packWord
  apply BitVec.eq_of_getLsbD_eq
  intro i hi
  simp only [BitVec.getLsbD_append, BitVec.getLsbD_extractLsb']
  simp [hi]

@[simp] theorem imm8Field_packWord (op : BitVec 4) (imm : Byte) : imm8Field (packWord op imm) = imm := by
  unfold imm8Field packWord
  apply BitVec.eq_of_getLsbD_eq
  intro i hi
  have h : ¬ 8 + i < 4 := by omega
  have h' : ¬ 8 + i - 4 < 4 := by omega
  have e : 8 + i - 4 - 4 = i := by omega
  simp only [BitVec.getLsbD_append, BitVec.getLsbD_extractLsb', h, h', e]
  simp [hi]

@[simp] theorem rsv1Field_packWord (op : BitVec 4) (imm : Byte) : rsv1Field (packWord op imm) = 0#16 := by
  unfold rsv1Field packWord
  apply BitVec.eq_of_getLsbD_eq
  intro i hi
  have h : ¬ 16 + i < 4 := by omega
  have h' : ¬ 16 + i - 4 < 4 := by omega
  have h'' : ¬ 16 + i - 4 - 4 < 8 := by omega
  simp only [BitVec.getLsbD_append, BitVec.getLsbD_extractLsb', h, h', h'']
  simp

/-- A word with both reserved fields 0 is the packing of its OP and IMM8. -/
theorem eq_packWord_of_rsv (w : Word) (h1 : rsv1Field w = 0#16) (h0 : rsv0Field w = 0#4) :
    w = packWord (opField w) (imm8Field w) := by
  conv_lhs => rw [word_eq_fields w, h1, h0]
  rfl

/-- Decoding a packed word reads its OP and IMM8. -/
@[simp] theorem decode_packWord (op : BitVec 4) (imm : Byte) : decode (packWord op imm) = decodeOp op imm := by
  simp [decode]

/-- A command is read back from its own word. -/
@[simp] theorem decode_encode (i : Instr) : decode (encode i) = .ok i := by
  cases i <;> simp [encode, Instr.op, Instr.imm8, decodeOp, withoutOperand]

/-- A word that decodes has both reserved fields 0 and its OP and IMM8 decode to the command. -/
theorem decode_ok_fields {w : Word} {i : Instr} (h : decode w = .ok i) :
    rsv1Field w = 0#16 ∧ rsv0Field w = 0#4 ∧ decodeOp (opField w) (imm8Field w) = .ok i := by
  unfold decode at h
  split at h
  · cases h
  · split at h
    · cases h
    · exact ⟨not_not.mp ‹_›, not_not.mp ‹_›, h⟩

end Sys2Proof
end

