-- ==== Sys2Proof/Laws/State.lean ====
section
/-! SUPPORT. One lemma per field per named update of `State`: what each update does to each field. -/

namespace Sys2Proof.Machine

/-! ### setErr: recording an error (R180) -/

@[simp] theorem setErr_opState (e : Err) (s : State) : (setErr e s).opState = s.opState := rfl

@[simp] theorem setErr_field (e : Err) (s : State) : (setErr e s).field = s.field := rfl

@[simp] theorem setErr_count (e : Err) (s : State) : (setErr e s).count = s.count := rfl

@[simp] theorem setErr_length (e : Err) (s : State) : (setErr e s).length = s.length := rfl

@[simp] theorem setErr_chunkType (e : Err) (s : State) : (setErr e s).chunkType = s.chunkType := rfl

@[simp] theorem setErr_crcState (e : Err) (s : State) : (setErr e s).crcState = s.crcState := rfl

@[simp] theorem setErr_crcExpect (e : Err) (s : State) : (setErr e s).crcExpect = s.crcExpect := rfl

@[simp] theorem setErr_outByte (e : Err) (s : State) : (setErr e s).outByte = s.outByte := rfl

@[simp] theorem setErr_result (e : Err) (s : State) : (setErr e s).result = s.result := rfl

@[simp] theorem setErr_err (e : Err) (s : State) : (setErr e s).err = e := rfl

@[simp] theorem setErr_pending (e : Err) (s : State) : (setErr e s).pending = s.pending := rfl

@[simp] theorem setErr_reads (e : Err) (s : State) : (setErr e s).reads = s.reads := rfl

/-! ### feedCrc: feeding the engine one byte (R101) -/

@[simp] theorem feedCrc_opState (b : Byte) (s : State) : (feedCrc b s).opState = s.opState := rfl

@[simp] theorem feedCrc_field (b : Byte) (s : State) : (feedCrc b s).field = s.field := rfl

@[simp] theorem feedCrc_count (b : Byte) (s : State) : (feedCrc b s).count = s.count := rfl

@[simp] theorem feedCrc_length (b : Byte) (s : State) : (feedCrc b s).length = s.length := rfl

@[simp] theorem feedCrc_chunkType (b : Byte) (s : State) : (feedCrc b s).chunkType = s.chunkType := rfl

@[simp] theorem feedCrc_crcState (b : Byte) (s : State) : (feedCrc b s).crcState = crcByte s.crcState b := rfl

@[simp] theorem feedCrc_crcExpect (b : Byte) (s : State) : (feedCrc b s).crcExpect = s.crcExpect := rfl

@[simp] theorem feedCrc_outByte (b : Byte) (s : State) : (feedCrc b s).outByte = s.outByte := rfl

@[simp] theorem feedCrc_result (b : Byte) (s : State) : (feedCrc b s).result = s.result := rfl

@[simp] theorem feedCrc_err (b : Byte) (s : State) : (feedCrc b s).err = s.err := rfl

@[simp] theorem feedCrc_pending (b : Byte) (s : State) : (feedCrc b s).pending = s.pending := rfl

@[simp] theorem feedCrc_reads (b : Byte) (s : State) : (feedCrc b s).reads = s.reads := rfl

/-! ### beginFrame: entering a frame operation (R121, R141) -/

@[simp] theorem beginFrame_opState (m : OpState) (s : State) : (beginFrame m s).opState = m := rfl

@[simp] theorem beginFrame_field (m : OpState) (s : State) : (beginFrame m s).field = .len := rfl

@[simp] theorem beginFrame_count (m : OpState) (s : State) : (beginFrame m s).count = 0#32 := rfl

@[simp] theorem beginFrame_length (m : OpState) (s : State) : (beginFrame m s).length = s.length := rfl

@[simp] theorem beginFrame_chunkType (m : OpState) (s : State) : (beginFrame m s).chunkType = s.chunkType := rfl

@[simp] theorem beginFrame_crcState (m : OpState) (s : State) : (beginFrame m s).crcState = Config.crcInit := rfl

@[simp] theorem beginFrame_crcExpect (m : OpState) (s : State) : (beginFrame m s).crcExpect = s.crcExpect := rfl

@[simp] theorem beginFrame_outByte (m : OpState) (s : State) : (beginFrame m s).outByte = 0#8 := rfl

@[simp] theorem beginFrame_result (m : OpState) (s : State) : (beginFrame m s).result = .none := rfl

@[simp] theorem beginFrame_err (m : OpState) (s : State) : (beginFrame m s).err = s.err := rfl

@[simp] theorem beginFrame_pending (m : OpState) (s : State) : (beginFrame m s).pending = s.pending := rfl

@[simp] theorem beginFrame_reads (m : OpState) (s : State) : (beginFrame m s).reads = s.reads := rfl

/-! ### advance: moving past one frame byte (R122, R142) -/

@[simp] theorem advance_opState (s : State) : (advance s).opState = s.opState := rfl

@[simp] theorem advance_field (s : State) : (advance s).field = (nextPosition s.field s.count s.length).1 := rfl

@[simp] theorem advance_count (s : State) : (advance s).count = (nextPosition s.field s.count s.length).2 := rfl

@[simp] theorem advance_length (s : State) : (advance s).length = s.length := rfl

@[simp] theorem advance_chunkType (s : State) : (advance s).chunkType = s.chunkType := rfl

@[simp] theorem advance_crcState (s : State) : (advance s).crcState = s.crcState := rfl

@[simp] theorem advance_crcExpect (s : State) : (advance s).crcExpect = s.crcExpect := rfl

@[simp] theorem advance_outByte (s : State) : (advance s).outByte = s.outByte := rfl

@[simp] theorem advance_result (s : State) : (advance s).result = s.result := rfl

@[simp] theorem advance_err (s : State) : (advance s).err = s.err := rfl

@[simp] theorem advance_pending (s : State) : (advance s).pending = s.pending := rfl

@[simp] theorem advance_reads (s : State) : (advance s).reads = s.reads := rfl

/-! ### endFrame: ending a frame operation (R123, R125, R143, R167) -/

@[simp] theorem endFrame_opState (r : Result) (s : State) : (endFrame r s).opState = .idle := rfl

@[simp] theorem endFrame_field (r : Result) (s : State) : (endFrame r s).field = s.field := rfl

@[simp] theorem endFrame_count (r : Result) (s : State) : (endFrame r s).count = s.count := rfl

@[simp] theorem endFrame_length (r : Result) (s : State) : (endFrame r s).length = s.length := rfl

@[simp] theorem endFrame_chunkType (r : Result) (s : State) : (endFrame r s).chunkType = s.chunkType := rfl

@[simp] theorem endFrame_crcState (r : Result) (s : State) : (endFrame r s).crcState = s.crcState := rfl

@[simp] theorem endFrame_crcExpect (r : Result) (s : State) : (endFrame r s).crcExpect = s.crcExpect := rfl

@[simp] theorem endFrame_outByte (r : Result) (s : State) : (endFrame r s).outByte = s.outByte := rfl

@[simp] theorem endFrame_result (r : Result) (s : State) : (endFrame r s).result = r := rfl

@[simp] theorem endFrame_err (r : Result) (s : State) : (endFrame r s).err = s.err := rfl

@[simp] theorem endFrame_pending (r : Result) (s : State) : (endFrame r s).pending = s.pending := rfl

@[simp] theorem endFrame_reads (r : Result) (s : State) : (endFrame r s).reads = s.reads := rfl

/-! ### recordRead: recording a word read (R8) -/

@[simp] theorem recordRead_opState (v : Word) (s : State) : (recordRead v s).opState = s.opState := rfl

@[simp] theorem recordRead_field (v : Word) (s : State) : (recordRead v s).field = s.field := rfl

@[simp] theorem recordRead_count (v : Word) (s : State) : (recordRead v s).count = s.count := rfl

@[simp] theorem recordRead_length (v : Word) (s : State) : (recordRead v s).length = s.length := rfl

@[simp] theorem recordRead_chunkType (v : Word) (s : State) : (recordRead v s).chunkType = s.chunkType := rfl

@[simp] theorem recordRead_crcState (v : Word) (s : State) : (recordRead v s).crcState = s.crcState := rfl

@[simp] theorem recordRead_crcExpect (v : Word) (s : State) : (recordRead v s).crcExpect = s.crcExpect := rfl

@[simp] theorem recordRead_outByte (v : Word) (s : State) : (recordRead v s).outByte = s.outByte := rfl

@[simp] theorem recordRead_result (v : Word) (s : State) : (recordRead v s).result = s.result := rfl

@[simp] theorem recordRead_err (v : Word) (s : State) : (recordRead v s).err = s.err := rfl

@[simp] theorem recordRead_pending (v : Word) (s : State) : (recordRead v s).pending = s.pending := rfl

@[simp] theorem recordRead_reads (v : Word) (s : State) : (recordRead v s).reads = s.reads ++ [v] := rfl

/-! ### resetBlock: Reset (R41, R200) -/

@[simp] theorem resetBlock_opState (s : State) : (resetBlock s).opState = .idle := rfl

@[simp] theorem resetBlock_field (s : State) : (resetBlock s).field = .len := rfl

@[simp] theorem resetBlock_count (s : State) : (resetBlock s).count = 0#32 := rfl

@[simp] theorem resetBlock_length (s : State) : (resetBlock s).length = 0#32 := rfl

@[simp] theorem resetBlock_chunkType (s : State) : (resetBlock s).chunkType = 0#32 := rfl

@[simp] theorem resetBlock_crcState (s : State) : (resetBlock s).crcState = 0xFFFFFFFF#32 := rfl

@[simp] theorem resetBlock_crcExpect (s : State) : (resetBlock s).crcExpect = 0#32 := rfl

@[simp] theorem resetBlock_outByte (s : State) : (resetBlock s).outByte = 0#8 := rfl

@[simp] theorem resetBlock_result (s : State) : (resetBlock s).result = .none := rfl

@[simp] theorem resetBlock_err (s : State) : (resetBlock s).err = .none := rfl

@[simp] theorem resetBlock_pending (s : State) : (resetBlock s).pending = s.pending := rfl

@[simp] theorem resetBlock_reads (s : State) : (resetBlock s).reads = s.reads := rfl

end Sys2Proof.Machine
end

