-- ==== Sys2Proof/Laws/Ops.lean ====
section
/-! SUPPORT. What the shared operations can do, each said once: acceptance (44_control.md R162, R168), the effect of each
command, the registers of the offsets (10_state.md R36), one transaction, and a sequence of them (00_scope.md R6). -/

namespace Sys2Proof.Machine

/-! ### Acceptance -/

theorem acceptIn_of_mem {states : List OpState} {effect : State → State} {s : State} (h : s.opState ∈ states) :
    acceptIn states effect s = .next (setErr .none (effect s)) := by
  simp [acceptIn, h]

theorem acceptIn_of_not_mem {states : List OpState} {effect : State → State} {s : State} (h : s.opState ∉ states) :
    acceptIn states effect s = .next (setErr .sequence s) := by
  simp [acceptIn, h]

/-- Acceptance always answers a next state: the effect with ERR = NONE, or ERR = SEQUENCE and nothing else. -/
theorem acceptIn_next {states : List OpState} {effect : State → State} {s t : State}
    (h : acceptIn states effect s = .next t) :
    (s.opState ∈ states ∧ t = setErr .none (effect s)) ∨ (s.opState ∉ states ∧ t = setErr .sequence s) := by
  unfold acceptIn at h
  split at h
  · cases h; exact .inl ⟨‹_›, rfl⟩
  · cases h; exact .inr ⟨‹_›, rfl⟩

/-! ### The commands -/

/-- The effect of an accepted command, ERR apart. -/
def effectOf : Instr → State → State
  | .nop, s => s
  | .crcInit, s => { s with crcState := Config.crcInit }
  | .crcFeed b, s => feedCrc b s
  | .parseBegin, s => beginFrame .parse { s with length := 0#32, chunkType := 0#32, crcExpect := 0#32 }
  | .parseFeed b, s => parseByte b s
  | .parseEnd, s => endFrame .truncated s
  | .serBegin, s => beginFrame .ser s
  | .serStep d, s => serializeByte d s
  | .abort, s => abortFrame s

/-- What a command does in any state: its effect with ERR = NONE where R168 accepts it, SEQUENCE elsewhere. -/
theorem exec_eq (i : Instr) (s : State) :
    exec i s = .next (if acceptedIn i s.opState then setErr .none (effectOf i s) else setErr .sequence s) := by
  cases i <;> cases h : s.opState <;>
    simp [exec, execNop, execCrcInit, execCrcFeed, execParseBegin, execParseFeed, execParseEnd, execSerBegin,
      execSerStep, execAbort, acceptIn, acceptedIn, effectOf, h]

/-- A command that answers `t` was accepted with its effect, or refused with SEQUENCE. -/
theorem exec_next {i : Instr} {s t : State} (h : exec i s = .next t) :
    (acceptedIn i s.opState = true ∧ t = setErr .none (effectOf i s)) ∨
      (acceptedIn i s.opState = false ∧ t = setErr .sequence s) := by
  rw [exec_eq] at h
  cases ha : acceptedIn i s.opState <;> simp [ha] at h
  · exact .inr ⟨rfl, h.symm⟩
  · exact .inl ⟨rfl, h.symm⟩

theorem exec_accepted {i : Instr} {s : State} (h : acceptedIn i s.opState = true) :
    exec i s = .next (setErr .none (effectOf i s)) := by
  rw [exec_eq, if_pos h]

theorem exec_refused {i : Instr} {s : State} (h : acceptedIn i s.opState = false) :
    exec i s = .next (setErr .sequence s) := by
  rw [exec_eq, h]; rfl

/-! ### The registers of the offsets -/

@[simp] theorem regAt_cmd : regAt 0x00#8 = .cmd := by decide
@[simp] theorem regAt_status : regAt 0x04#8 = .status := by decide
@[simp] theorem regAt_length : regAt 0x08#8 = .length := by decide
@[simp] theorem regAt_chunkType : regAt 0x0C#8 = .chunkType := by decide
@[simp] theorem regAt_typeFlags : regAt 0x10#8 = .typeFlags := by decide
@[simp] theorem regAt_crcExpect : regAt 0x14#8 = .crcExpect := by decide
@[simp] theorem regAt_crcValue : regAt 0x18#8 = .crcValue := by decide
@[simp] theorem regAt_crcRaw : regAt 0x1C#8 = .crcRaw := by decide
@[simp] theorem regAt_count : regAt 0x20#8 = .count := by decide
@[simp] theorem regAt_outByte : regAt 0x24#8 = .outByte := by decide
@[simp] theorem regAt_id : regAt 0x28#8 = .id := by decide

theorem regOfSlot_reserved {n : Nat} (h : 11 ≤ n) : regOfSlot n = .reserved := by
  obtain ⟨k, rfl⟩ : ∃ k, n = k + 11 := ⟨n - 11, by omega⟩
  rfl

theorem slotOf_toNat (off : Offset) : (slotOf off).toNat = off.toNat / 4 := by
  have := off.isLt
  simp only [slotOf, BitVec.extractLsb'_toNat, Nat.shiftRight_eq_div_pow]
  omega

/-- The reserved offsets, 0x2C to 0xFC. -/
theorem regAt_reserved {off : Offset} (h : 0x2C#8 ≤ off) : regAt off = .reserved := by
  apply regOfSlot_reserved
  rw [slotOf_toNat]
  have : 44 ≤ off.toNat := by simpa [BitVec.le_def] using h
  omega

/-- The slots of the registers whose writes are accepted, and no others, name them. -/
theorem regAt_eq_cmd_iff (off : Offset) : regAt off = .cmd ↔ slotOf off = 0#6 := by
  unfold regAt; generalize slotOf off = n; revert n; decide
theorem regAt_eq_length_iff (off : Offset) : regAt off = .length ↔ slotOf off = 2#6 := by
  unfold regAt; generalize slotOf off = n; revert n; decide
theorem regAt_eq_chunkType_iff (off : Offset) : regAt off = .chunkType ↔ slotOf off = 3#6 := by
  unfold regAt; generalize slotOf off = n; revert n; decide
theorem regAt_eq_crcExpect_iff (off : Offset) : regAt off = .crcExpect ↔ slotOf off = 5#6 := by
  unfold regAt; generalize slotOf off = n; revert n; decide

/-! ### Transactions -/

@[simp] theorem transact_reset (s : State) : transact .reset s = .next (resetBlock s) := rfl

@[simp] theorem transact_read (off : Offset) (s : State) :
    transact (.read off) s = .next (recordRead (readReg (regAt off) s) s) := rfl

theorem transact_write (off : Offset) (v : Word) (s : State) :
    transact (.write off v) s = writeReg (regAt off) v s := rfl

/-- A Write to CMD of a command's own word executes the command. -/
@[simp] theorem transact_commandWrite (i : Instr) (s : State) : transact (commandWrite i) s = exec i s := by
  simp [commandWrite, transact_write, writeReg, writeCmd]

/-- What a transaction can do. -/
theorem transact_cases (x : Transaction) (s : State) :
    (x = .reset ∧ transact x s = .next (resetBlock s)) ∨
    (∃ off, x = .read off ∧ transact x s = .next (recordRead (readReg (regAt off) s) s)) ∨
    (∃ off w i, x = .write off w ∧ regAt off = .cmd ∧ decode w = .ok i ∧ transact x s = exec i s) ∨
    (∃ off w e, x = .write off w ∧ regAt off = .cmd ∧ decode w = .error e ∧
      transact x s = .next (setErr .illegal s)) ∨
    (∃ off v, x = .write off v ∧ regAt off = .length ∧
      transact x s = acceptIn [.idle] (fun s => { s with length := v }) s) ∨
    (∃ off v, x = .write off v ∧ regAt off = .chunkType ∧
      transact x s = acceptIn [.idle] (fun s => { s with chunkType := v }) s) ∨
    (∃ off v, x = .write off v ∧ regAt off = .crcExpect ∧
      transact x s = acceptIn [.idle] (fun s => { s with crcExpect := v }) s) ∨
    (∃ off v, x = .write off v ∧ regAt off ≠ .cmd ∧ regAt off ≠ .length ∧ regAt off ≠ .chunkType ∧
      regAt off ≠ .crcExpect ∧ transact x s = .next s) := by
  cases x with
  | reset => exact .inl ⟨rfl, rfl⟩
  | read off => exact .inr (.inl ⟨off, rfl, rfl⟩)
  | write off v =>
    right; right
    cases hr : regAt off with
    | cmd =>
      cases hd : decode v with
      | ok i => exact .inl ⟨off, v, i, rfl, hr, hd, by simp [transact, hr, writeReg, writeCmd, hd]⟩
      | error e => exact .inr (.inl ⟨off, v, e, rfl, hr, hd, by simp [transact, hr, writeReg, writeCmd, hd]⟩)
    | length => exact .inr (.inr (.inl ⟨off, v, rfl, hr, by simp [transact, hr, writeReg, writeLength]⟩))
    | chunkType => exact .inr (.inr (.inr (.inl ⟨off, v, rfl, hr, by simp [transact, hr, writeReg, writeType]⟩)))
    | crcExpect =>
      exact .inr (.inr (.inr (.inr (.inl ⟨off, v, rfl, hr, by simp [transact, hr, writeReg, writeCrcExpect]⟩))))
    | status | typeFlags | crcValue | crcRaw | count | outByte | id | reserved =>
      exact .inr (.inr (.inr (.inr (.inr ⟨off, v, rfl, by simp [hr], by simp [hr], by simp [hr], by simp [hr],
        by simp [transact, hr, writeReg]⟩))))

/-! ### Sequences of transactions -/

@[simp] theorem transactAll_nil (s : State) : transactAll [] s = .next s := rfl

theorem transactAll_cons_of_next {x : Transaction} {s t : State} (h : transact x s = .next t)
    (ts : List Transaction) : transactAll (x :: ts) s = transactAll ts t := by
  simp [transactAll, h]

theorem transactAll_append_of_next {xs : List Transaction} {s t : State} (h : transactAll xs s = .next t)
    (ys : List Transaction) : transactAll (xs ++ ys) s = transactAll ys t := by
  induction xs generalizing s with
  | nil => cases h; rfl
  | cons x xs ih =>
    simp only [transactAll, List.cons_append] at h ⊢
    cases hx : transact x s with
    | next u => simp only [hx] at h ⊢; exact ih h
    | fault r => simp [hx] at h
    | refused r => simp [hx] at h

end Sys2Proof.Machine
end

