-- ==== Sys2Proof/Laws/Frame.lean ====
section
/-! SUPPORT. The walk of a frame, one lemma per field: what a PARSE_FEED and a SER_STEP do in LEN, TYPE, DATA and CRC
(42_parser.md R122, R123; 43_serializer.md R142), and how COUNT and FIELD move (R124). -/

namespace Sys2Proof.Machine

theorem OpState.eq_of_accepts_parseFeed {b : Byte} {o : OpState} (h : acceptedIn (.parseFeed b) o = true) :
    o = .parse := by
  cases o <;> simp [acceptedIn] at h ⊢

theorem OpState.eq_of_accepts_serStep {d : Byte} {o : OpState} (h : acceptedIn (.serStep d) o = true) : o = .ser := by
  cases o <;> simp [acceptedIn] at h ⊢

/-! ### The position -/

theorem advance_len {s : State} (h : s.field = .len) :
    advance s = { s with
      field := if s.count = 3#32 then .type else .len
      count := if s.count = 3#32 then 0#32 else s.count + 1#32 } := by
  unfold advance nextPosition
  rw [h]
  by_cases hc : s.count = 3#32 <;> simp [hc]

theorem advance_type {s : State} (h : s.field = .type) :
    advance s = { s with
      field := if s.count = 3#32 then (if s.length = 0#32 then .crc else .data) else .type
      count := if s.count = 3#32 then 0#32 else s.count + 1#32 } := by
  unfold advance nextPosition
  rw [h]
  by_cases hc : s.count = 3#32 <;> simp [hc]

theorem advance_data {s : State} (h : s.field = .data) :
    advance s = { s with
      field := if s.count = s.length - 1#32 then .crc else .data
      count := if s.count = s.length - 1#32 then 0#32 else s.count + 1#32 } := by
  unfold advance nextPosition
  rw [h]
  by_cases hc : s.count = s.length - 1#32 <;> simp [hc]

theorem advance_crc {s : State} (h : s.field = .crc) (hc : s.count ≠ 3#32) :
    advance s = { s with count := s.count + 1#32 } := by
  unfold advance nextPosition
  rw [h]
  simp [hc]

/-! ### PARSE_FEED, field by field -/

theorem parseByte_len {b : Byte} {s : State} (h : s.field = .len) :
    parseByte b s = { s with
      outByte := b
      length := shiftIn s.length b
      field := if s.count = 3#32 then .type else .len
      count := if s.count = 3#32 then 0#32 else s.count + 1#32 } := by
  obtain ⟨o, f, c, l, t, cs, ce, ob, r, e, p, rd⟩ := s
  cases h
  by_cases hc : c = 3#32 <;> simp [parseByte, advance, nextPosition, hc]

theorem parseByte_type {b : Byte} {s : State} (h : s.field = .type) :
    parseByte b s = { s with
      outByte := b
      chunkType := shiftIn s.chunkType b
      crcState := crcByte s.crcState b
      field := if s.count = 3#32 then (if s.length = 0#32 then .crc else .data) else .type
      count := if s.count = 3#32 then 0#32 else s.count + 1#32 } := by
  obtain ⟨o, f, c, l, t, cs, ce, ob, r, e, p, rd⟩ := s
  cases h
  by_cases hc : c = 3#32 <;> simp [parseByte, advance, nextPosition, feedCrc, hc]

theorem parseByte_data {b : Byte} {s : State} (h : s.field = .data) :
    parseByte b s = { s with
      outByte := b
      crcState := crcByte s.crcState b
      field := if s.count = s.length - 1#32 then .crc else .data
      count := if s.count = s.length - 1#32 then 0#32 else s.count + 1#32 } := by
  obtain ⟨o, f, c, l, t, cs, ce, ob, r, e, p, rd⟩ := s
  cases h
  by_cases hc : c = l - 1#32 <;> simp [parseByte, advance, nextPosition, feedCrc, hc]

theorem parseByte_crc {b : Byte} {s : State} (h : s.field = .crc) (hc : s.count ≠ 3#32) :
    parseByte b s = { s with outByte := b, crcExpect := shiftIn s.crcExpect b, count := s.count + 1#32 } := by
  obtain ⟨o, f, c, l, t, cs, ce, ob, r, e, p, rd⟩ := s
  cases h
  simp at hc
  simp [parseByte, advance, nextPosition, hc]

theorem parseByte_crc_last {b : Byte} {s : State} (h : s.field = .crc) (hc : s.count = 3#32) :
    parseByte b s = { s with
      outByte := b
      crcExpect := shiftIn s.crcExpect b
      opState := .idle
      field := .len
      count := 0#32
      result := verdict (shiftIn s.crcExpect b) s.crcState } := by
  obtain ⟨o, f, c, l, t, cs, ce, ob, r, e, p, rd⟩ := s
  cases h
  simp at hc
  simp [parseByte, completeParse, endFrame, hc]

/-! ### SER_STEP, field by field -/

theorem serializeByte_len {d : Byte} {s : State} (h : s.field = .len) :
    serializeByte d s = { s with
      outByte := byteOf s.length s.count
      field := if s.count = 3#32 then .type else .len
      count := if s.count = 3#32 then 0#32 else s.count + 1#32 } := by
  obtain ⟨o, f, c, l, t, cs, ce, ob, r, e, p, rd⟩ := s
  cases h
  by_cases hc : c = 3#32 <;> simp [serializeByte, advance, nextPosition, hc]

theorem serializeByte_type {d : Byte} {s : State} (h : s.field = .type) :
    serializeByte d s = { s with
      outByte := byteOf s.chunkType s.count
      crcState := crcByte s.crcState (byteOf s.chunkType s.count)
      field := if s.count = 3#32 then (if s.length = 0#32 then .crc else .data) else .type
      count := if s.count = 3#32 then 0#32 else s.count + 1#32 } := by
  obtain ⟨o, f, c, l, t, cs, ce, ob, r, e, p, rd⟩ := s
  cases h
  by_cases hc : c = 3#32 <;> simp [serializeByte, advance, nextPosition, feedCrc, hc]

theorem serializeByte_data {d : Byte} {s : State} (h : s.field = .data) :
    serializeByte d s = { s with
      outByte := d
      crcState := crcByte s.crcState d
      field := if s.count = s.length - 1#32 then .crc else .data
      count := if s.count = s.length - 1#32 then 0#32 else s.count + 1#32 } := by
  obtain ⟨o, f, c, l, t, cs, ce, ob, r, e, p, rd⟩ := s
  cases h
  by_cases hc : c = l - 1#32 <;> simp [serializeByte, advance, nextPosition, feedCrc, hc]

theorem serializeByte_crc {d : Byte} {s : State} (h : s.field = .crc) (hc : s.count ≠ 3#32) :
    serializeByte d s = { s with outByte := byteOf s.crcValue s.count, count := s.count + 1#32 } := by
  obtain ⟨o, f, c, l, t, cs, ce, ob, r, e, p, rd⟩ := s
  cases h
  simp at hc
  simp [serializeByte, advance, nextPosition, State.crcValue, hc]

theorem serializeByte_crc_last {d : Byte} {s : State} (h : s.field = .crc) (hc : s.count = 3#32) :
    serializeByte d s = { s with
      outByte := byteOf s.crcValue 3#32
      opState := .idle
      field := .len
      count := 0#32
      result := .ok } := by
  obtain ⟨o, f, c, l, t, cs, ce, ob, r, e, p, rd⟩ := s
  cases h
  simp at hc
  simp [serializeByte, endFrame, State.crcValue, hc]

/-! ### What the host has still to do and has read is not a command's concern -/

@[simp] theorem parseByte_pending (b : Byte) (s : State) : (parseByte b s).pending = s.pending := by
  unfold parseByte completeParse
  split <;> (try split) <;> simp

@[simp] theorem parseByte_reads (b : Byte) (s : State) : (parseByte b s).reads = s.reads := by
  unfold parseByte completeParse
  split <;> (try split) <;> simp

@[simp] theorem serializeByte_pending (d : Byte) (s : State) : (serializeByte d s).pending = s.pending := by
  unfold serializeByte
  split <;> (try split) <;> simp

@[simp] theorem serializeByte_reads (d : Byte) (s : State) : (serializeByte d s).reads = s.reads := by
  unfold serializeByte
  split <;> (try split) <;> simp

@[simp] theorem abortFrame_pending (s : State) : (abortFrame s).pending = s.pending := by
  unfold abortFrame
  split <;> simp

@[simp] theorem abortFrame_reads (s : State) : (abortFrame s).reads = s.reads := by
  unfold abortFrame
  split <;> simp

theorem effectOf_pending (i : Instr) (s : State) : (effectOf i s).pending = s.pending := by
  cases i <;> simp [effectOf]

theorem effectOf_reads (i : Instr) (s : State) : (effectOf i s).reads = s.reads := by
  cases i <;> simp [effectOf]

end Sys2Proof.Machine
end

