-- ==== Sys2Proof/Laws/PerInstr.lean ====
section
/-! SUPPORT. Statements made once per command: the word of every command passes the checks of 30_encoding.md R76. -/

namespace Sys2Proof

/-- The word of the command is a legal command word (R76). -/
def Laws.EncodesLegal.Statement (i : Instr) : Prop := legalWord (encode i) = true

/-- A packed word passes the checks where its OP and IMM8 do. -/
theorem legalWord_packWord (op : BitVec 4) (imm : Byte) :
    legalWord (packWord op imm) =
      (decide (op ≤ 8#4) && ((op == 2#4 || op == 4#4 || op == 7#4) || imm == 0#8)) := by
  have h1 : (packWord op imm).extractLsb' 16 16 = 0#16 := rsv1Field_packWord op imm
  have h0 : (packWord op imm).extractLsb' 4 4 = 0#4 := rsv0Field_packWord op imm
  have ho : (packWord op imm).extractLsb' 0 4 = op := opField_packWord op imm
  have hi : (packWord op imm).extractLsb' 8 8 = imm := imm8Field_packWord op imm
  simp only [legalWord, rsv1Clear, rsv0Clear, opAssigned, operandAllowed, h1, h0, ho, hi]
  simp

theorem Laws.EncodesLegal.nop : Laws.EncodesLegal.Statement .nop := legalWord_packWord 0#4 0#8
theorem Laws.EncodesLegal.crcInit : Laws.EncodesLegal.Statement .crcInit := legalWord_packWord 1#4 0#8
theorem Laws.EncodesLegal.crcFeed (b : Byte) : Laws.EncodesLegal.Statement (.crcFeed b) := legalWord_packWord 2#4 b
theorem Laws.EncodesLegal.parseBegin : Laws.EncodesLegal.Statement .parseBegin := legalWord_packWord 3#4 0#8
theorem Laws.EncodesLegal.parseFeed (b : Byte) : Laws.EncodesLegal.Statement (.parseFeed b) :=
  legalWord_packWord 4#4 b
theorem Laws.EncodesLegal.parseEnd : Laws.EncodesLegal.Statement .parseEnd := legalWord_packWord 5#4 0#8
theorem Laws.EncodesLegal.serBegin : Laws.EncodesLegal.Statement .serBegin := legalWord_packWord 6#4 0#8
theorem Laws.EncodesLegal.serStep (d : Byte) : Laws.EncodesLegal.Statement (.serStep d) := legalWord_packWord 7#4 d
theorem Laws.EncodesLegal.abort : Laws.EncodesLegal.Statement .abort := legalWord_packWord 8#4 0#8

end Sys2Proof
end

