-- ==== Sys2Proof/Laws/Runs.lean ====
section
/-! SUPPORT. Runs of frame bytes: what a row of PARSE_FEEDs and of SER_STEPs does in one field of a frame
(42_parser.md R122, 43_serializer.md R142), and the bytes of a word (00_scope.md R10). -/

namespace Sys2Proof.Machine

/-! ### The bytes of a word -/

/-- Four bytes shifted in leave nothing of what was there. -/
theorem shiftIn_four (a b c d : Byte) (v : Word) :
    shiftIn (shiftIn (shiftIn (shiftIn v a) b) c) d = a ++ b ++ c ++ d := by
  unfold shiftIn
  apply BitVec.eq_of_getLsbD_eq
  intro i hi
  simp only [BitVec.getLsbD_or, BitVec.getLsbD_shiftLeft, BitVec.getLsbD_append, BitVec.getLsbD_setWidth]
  have out : ∀ (x : Byte) (n : Nat), 8 ≤ n → x.getLsbD n = false := fun x n h => x.getLsbD_of_ge n h
  by_cases h1 : i < 8
  · simp [h1, hi]
  have a1 : i - 8 < 32 := by omega
  by_cases h2 : i - 8 < 8
  · simp [h1, h2, hi, a1, out d i (by omega)]
  have a2 : i - 8 - 8 < 32 := by omega
  by_cases h3 : i - 8 - 8 < 8
  · simp [h1, h2, h3, hi, a1, a2, out d i (by omega), out c (i - 8) (by omega)]
  have a3 : i - 8 - 8 - 8 < 32 := by omega
  have h4 : i - 8 - 8 - 8 < 8 := by omega
  simp [h1, h2, h3, h4, hi, a1, a2, a3, out d i (by omega), out c (i - 8) (by omega), out b (i - 8 - 8) (by omega)]

theorem bigEndian_four (a b c d : Byte) : bigEndian [a, b, c, d] = a ++ b ++ c ++ d := by
  simp [bigEndian, shiftIn_four]

/-- Every word is four bytes. -/
theorem exists_four_bytes (v : Word) : ∃ a b c d : Byte, v = a ++ b ++ c ++ d := by
  refine ⟨v.extractLsb' 24 8, v.extractLsb' 16 8, v.extractLsb' 8 8, v.extractLsb' 0 8, ?_⟩
  apply BitVec.eq_of_getLsbD_eq
  intro i hi
  simp only [BitVec.getLsbD_append, BitVec.getLsbD_extractLsb']
  by_cases h1 : i < 8
  · simp [h1]
  by_cases h2 : i - 8 < 8
  · have e : 8 + (i - 8) = i := by omega
    simp [h1, h2, e]
  by_cases h3 : i - 8 - 8 < 8
  · have e : 16 + (i - 8 - 8) = i := by omega
    simp [h1, h2, h3, e]
  have e : 24 + (i - 8 - 8 - 8) = i := by omega
  have h4 : i - 8 - 8 - 8 < 8 := by omega
  simp [h1, h2, h3, h4, e]

@[simp] theorem wordBytes_length (v : Word) : (wordBytes v).length = 4 := rfl

/-! ### PARSE_FEEDs -/

theorem feed_cons (b : Byte) (bs : List Byte) {s : State} (h : s.opState = .parse) :
    transactAll (feedAll (b :: bs)) s = transactAll (feedAll bs) (setErr .none (parseByte b s)) := by
  apply transactAll_cons_of_next
  rw [transact_commandWrite, exec_accepted (by rw [h]; rfl)]
  rfl

theorem feed_append (xs ys : List Byte) {s t : State} (h : transactAll (feedAll xs) s = .next t) :
    transactAll (feedAll (xs ++ ys)) s = transactAll (feedAll ys) t := by
  rw [feedAll, List.map_append]
  exact transactAll_append_of_next h _

/-- The four bytes of LEN. -/
theorem feed_len (a b c d : Byte) (s : State) (ho : s.opState = .parse) (hf : s.field = .len) (hc : s.count = 0#32) :
    transactAll (feedAll [a, b, c, d]) s = .next { s with
      outByte := d, err := .none, length := a ++ b ++ c ++ d, field := .type, count := 0#32 } := by
  obtain ⟨o, f, n, l, t, cs, ce, ob, r, e, p, rd⟩ := s
  cases ho; cases hf; cases hc
  rw [← shiftIn_four a b c d l]
  iterate 4 (rw [feed_cons _ _ rfl, parseByte_len rfl]; simp only [setErr])
  rfl

/-- The four bytes of TYPE. -/
theorem feed_type (a b c d : Byte) (s : State) (ho : s.opState = .parse) (hf : s.field = .type) (hc : s.count = 0#32) :
    transactAll (feedAll [a, b, c, d]) s = .next { s with
      outByte := d, err := .none, chunkType := a ++ b ++ c ++ d, crcState := [a, b, c, d].foldl crcByte s.crcState,
      field := if s.length = 0#32 then .crc else .data, count := 0#32 } := by
  obtain ⟨o, f, n, l, t, cs, ce, ob, r, e, p, rd⟩ := s
  cases ho; cases hf; cases hc
  rw [← shiftIn_four a b c d t]
  iterate 4 (rw [feed_cons _ _ rfl, parseByte_type rfl]; simp only [setErr])
  rfl

/-- The bytes DATA still takes, down to the last. -/
theorem feed_data (ds : List Byte) (s : State) (ho : s.opState = .parse) (hf : s.field = .data) (hne : ds ≠ [])
    (hc : s.count.toNat + ds.length = s.length.toNat) :
    transactAll (feedAll ds) s = .next { s with
      outByte := ds.getLast hne, err := .none, crcState := ds.foldl crcByte s.crcState, field := .crc,
      count := 0#32 } := by
  induction ds generalizing s with
  | nil => exact absurd rfl hne
  | cons b bs ih =>
    obtain ⟨o, f, n, l, t, cs, ce, ob, r, e, p, rd⟩ := s
    cases ho; cases hf
    rw [feed_cons _ _ rfl, parseByte_data rfl]
    simp only [setErr, List.length_cons] at hc ⊢
    cases bs with
    | nil =>
      have hl : n = l - 1#32 := by simp at hc; bv_omega
      simp only [hl, if_true]
      rfl
    | cons b' bs' =>
      simp only [List.length_cons] at hc
      have hl : ¬ n = l - 1#32 := by bv_omega
      have hn : (n + 1#32).toNat = n.toNat + 1 := by bv_omega
      simp only [hl, if_false]
      rw [ih _ rfl rfl (by simp) (by simp only [List.length_cons, hn]; omega)]
      simp

/-- The four bytes of CRC: the frame completes. -/
theorem feed_crc (a b c d : Byte) (s : State) (ho : s.opState = .parse) (hf : s.field = .crc) (hc : s.count = 0#32) :
    transactAll (feedAll [a, b, c, d]) s = .next { s with
      outByte := d, err := .none, crcExpect := a ++ b ++ c ++ d, opState := .idle,
      result := verdict (a ++ b ++ c ++ d) s.crcState, field := .len, count := 0#32 } := by
  obtain ⟨o, f, n, l, t, cs, ce, ob, r, e, p, rd⟩ := s
  cases ho; cases hf
  dsimp only at hc
  subst hc
  rw [← shiftIn_four a b c d ce]
  iterate 3 (rw [feed_cons _ _ rfl, parseByte_crc rfl (show _ ≠ _ by simp)]; simp only [setErr])
  rw [feed_cons _ _ rfl, parseByte_crc_last rfl (show _ = _ from rfl)]
  rfl

/-- PARSE_BEGIN in IDLE, before a run of bytes. -/
theorem parseRun_of_idle (bs : List Byte) (s : State) (h : s.opState = .idle) :
    transactAll (parseRun bs) s = transactAll (feedAll bs) { s with
      opState := .parse, field := .len, count := 0#32, length := 0#32, chunkType := 0#32, crcExpect := 0#32,
      crcState := 0xFFFFFFFF#32, outByte := 0x00#8, result := .none, err := .none } := by
  apply transactAll_cons_of_next
  rw [transact_commandWrite, exec_accepted (by rw [h]; rfl)]
  rfl

/-! ### SER_STEPs, each with a Read of OUT_BYTE -/

theorem step_cons (d : Byte) (ds : List Byte) {s : State} (h : s.opState = .ser) :
    transactAll (stepAll (d :: ds)) s = transactAll (stepAll ds)
      (recordRead ((serializeByte d s).outByte.setWidth 32) (setErr .none (serializeByte d s))) := by
  show transactAll (commandWrite (.serStep d) :: .read 0x24#8 :: stepAll ds) s = _
  rw [transactAll_cons_of_next (t := setErr .none (serializeByte d s))]
  · rw [transactAll_cons_of_next (transact_read _ _)]
    rfl
  · rw [transact_commandWrite, exec_accepted (by rw [h]; rfl)]
    rfl

theorem step_append (xs ys : List Byte) {s t : State} (h : transactAll (stepAll xs) s = .next t) :
    transactAll (stepAll (xs ++ ys)) s = transactAll (stepAll ys) t := by
  rw [stepAll, List.flatMap_append]
  exact transactAll_append_of_next h _

/-- The four steps of LEN. -/
theorem step_len (a b c d : Byte) (s : State) (ho : s.opState = .ser) (hf : s.field = .len) (hc : s.count = 0#32) :
    transactAll (stepAll [a, b, c, d]) s = .next { s with
      outByte := byteOf s.length 3#32, err := .none, field := .type, count := 0#32,
      reads := s.reads ++ (wordBytes s.length).map (BitVec.setWidth 32) } := by
  obtain ⟨o, f, n, l, t, cs, ce, ob, r, e, p, rd⟩ := s
  cases ho; cases hf
  dsimp only at hc
  subst hc
  iterate 4 (rw [step_cons _ _ rfl, serializeByte_len rfl]; simp only [setErr, recordRead])
  show Host.Outcome.next _ = _
  congr 1
  simp [wordBytes, byteOf]

/-- The four steps of TYPE. -/
theorem step_type (a b c d : Byte) (s : State) (ho : s.opState = .ser) (hf : s.field = .type) (hc : s.count = 0#32) :
    transactAll (stepAll [a, b, c, d]) s = .next { s with
      outByte := byteOf s.chunkType 3#32, err := .none, field := if s.length = 0#32 then .crc else .data,
      count := 0#32, crcState := (wordBytes s.chunkType).foldl crcByte s.crcState,
      reads := s.reads ++ (wordBytes s.chunkType).map (BitVec.setWidth 32) } := by
  obtain ⟨o, f, n, l, t, cs, ce, ob, r, e, p, rd⟩ := s
  cases ho; cases hf
  dsimp only at hc
  subst hc
  iterate 4 (rw [step_cons _ _ rfl, serializeByte_type rfl]; simp only [setErr, recordRead])
  show Host.Outcome.next _ = _
  congr 1
  simp [wordBytes, byteOf]

/-- The steps DATA still takes, down to the last. -/
theorem step_data (ds : List Byte) (s : State) (ho : s.opState = .ser) (hf : s.field = .data) (hne : ds ≠ [])
    (hc : s.count.toNat + ds.length = s.length.toNat) :
    transactAll (stepAll ds) s = .next { s with
      outByte := ds.getLast hne, err := .none, crcState := ds.foldl crcByte s.crcState, field := .crc, count := 0#32,
      reads := s.reads ++ ds.map (BitVec.setWidth 32) } := by
  induction ds generalizing s with
  | nil => exact absurd rfl hne
  | cons b bs ih =>
    obtain ⟨o, f, n, l, t, cs, ce, ob, r, e, p, rd⟩ := s
    cases ho; cases hf
    rw [step_cons _ _ rfl, serializeByte_data rfl]
    simp only [setErr, recordRead, List.length_cons] at hc ⊢
    cases bs with
    | nil =>
      have hl : n = l - 1#32 := by simp at hc; bv_omega
      simp only [hl, if_true]
      rfl
    | cons b' bs' =>
      simp only [List.length_cons] at hc
      have hl : ¬ n = l - 1#32 := by bv_omega
      have hn : (n + 1#32).toNat = n.toNat + 1 := by bv_omega
      simp only [hl, if_false]
      rw [ih _ rfl rfl (by simp) (by simp only [List.length_cons, hn]; omega)]
      simp

/-- The four steps of CRC: the serialization completes. -/
theorem step_crc (a b c d : Byte) (s : State) (ho : s.opState = .ser) (hf : s.field = .crc) (hc : s.count = 0#32) :
    transactAll (stepAll [a, b, c, d]) s = .next { s with
      outByte := byteOf s.crcValue 3#32, err := .none, opState := .idle, result := .ok, field := .len, count := 0#32,
      reads := s.reads ++ (wordBytes s.crcValue).map (BitVec.setWidth 32) } := by
  obtain ⟨o, f, n, l, t, cs, ce, ob, r, e, p, rd⟩ := s
  cases ho; cases hf
  dsimp only at hc
  subst hc
  iterate 3
    (rw [step_cons _ _ rfl, serializeByte_crc rfl (show _ ≠ _ by simp)]; simp only [setErr, recordRead])
  rw [step_cons _ _ rfl, serializeByte_crc_last rfl (show _ = _ from rfl)]
  simp only [setErr, recordRead]
  show Host.Outcome.next _ = _
  congr 1
  simp [wordBytes, byteOf, State.crcValue]

end Sys2Proof.Machine
end

