-- ==== Sys2Proof/Tests/Slice0.lean ====
section
/-! SUPPORT. Tests: words written out from 30_encoding.md, ill-formed words for each check, vectors of
95_test_vectors.md and examples of the rules, and for each statement with hypotheses values that meet them. Every expected
value is the spec's. -/

namespace Sys2Proof.Tests

open Sys2Proof.Machine

/-- The next state of an outcome, if it is one. -/
def nextOf (o : Host.Outcome State Fault Refusal) : Option State :=
  match o with
  | .next t => some t
  | .fault _ => none
  | .refused _ => none

/-- The command a word decodes to, if it is legal. -/
def commandOf (w : Word) : Option Instr := decodeTableWord 32 w.toNat

/-- The value of STATUS after a transaction. -/
def statusAfter (x : Transaction) (s : State) : Option Word := (nextOf (transact x s)).map State.status

/-- A frame in progress at a place, with a LENGTH. -/
def midFrame (o : OpState) (f : Field) (count length : Word) : State :=
  { State.reset with opState := o, field := f, count := count, length := length }

/-! ### Decoding (R70, R75): the bits of RSV1, IMM8, RSV0, OP, most significant first -/

theorem test_decode_nop : decode 0b00000000000000000000000000000000#32 = .ok .nop := by decide
theorem test_decode_crcInit : decode 0b00000000000000000000000000000001#32 = .ok .crcInit := by decide
theorem test_decode_crcFeed : decode 0b00000000000000000100100100000010#32 = .ok (.crcFeed 0x49#8) := by decide
theorem test_decode_parseBegin : decode 0b00000000000000000000000000000011#32 = .ok .parseBegin := by decide
theorem test_decode_parseFeed : decode 0b00000000000000001000000100000100#32 = .ok (.parseFeed 0x81#8) := by decide
theorem test_decode_parseEnd : decode 0b00000000000000000000000000000101#32 = .ok .parseEnd := by decide
theorem test_decode_serBegin : decode 0b00000000000000000000000000000110#32 = .ok .serBegin := by decide
theorem test_decode_serStep : decode 0b00000000000000001111111100000111#32 = .ok (.serStep 0xFF#8) := by decide
theorem test_decode_abort : decode 0b00000000000000000000000000001000#32 = .ok .abort := by decide

/-- The other way: R105's example `0x0000bb02`, and the two words with the operand next to a reserved field. -/
theorem test_encode : encode (.crcFeed 0x49#8) = 0x00004902#32 ∧ encode (.parseFeed 0xFF#8) = 0x0000FF04#32 ∧
    encode (.serStep 0x01#8) = 0x00000107#32 ∧ encode .abort = 0x00000008#32 := by decide

/-! ### Well-formedness: a word that fails each check and no other, and the decoder's answer -/

theorem smoke_rsv1 : rsv1Clear 0x00010000#32 = false ∧ rsv0Clear 0x00010000#32 = true ∧
    opAssigned 0x00010000#32 = true ∧ operandAllowed 0x00010000#32 = true ∧ legalWord 0x00010000#32 = false ∧
    decode 0x00010000#32 = .error .rsv1Set := by decide
theorem smoke_rsv0 : rsv1Clear 0x00000010#32 = true ∧ rsv0Clear 0x00000010#32 = false ∧
    opAssigned 0x00000010#32 = true ∧ operandAllowed 0x00000010#32 = true ∧ legalWord 0x00000010#32 = false ∧
    decode 0x00000010#32 = .error .rsv0Set := by decide
theorem smoke_op : rsv1Clear 0x00000009#32 = true ∧ rsv0Clear 0x00000009#32 = true ∧
    opAssigned 0x00000009#32 = false ∧ operandAllowed 0x00000009#32 = true ∧ legalWord 0x00000009#32 = false ∧
    decode 0x00000009#32 = .error .reservedOp := by decide
theorem smoke_operand : rsv1Clear 0x00004901#32 = true ∧ rsv0Clear 0x00004901#32 = true ∧
    opAssigned 0x00004901#32 = true ∧ operandAllowed 0x00004901#32 = false ∧ legalWord 0x00004901#32 = false ∧
    decode 0x00004901#32 = .error .operandNotZero := by decide
theorem smoke_aligned : (Transaction.read 0x05#8).aligned = false ∧ (Transaction.write 0x06#8 0#32).aligned = false ∧
    (Transaction.read 0x04#8).aligned = true ∧ Transaction.reset.aligned = true := by decide

/-! ### Registers, STATUS and TYPE_FLAGS -/

/-- Vectors B1 to B5: what reads right after Reset. -/
theorem test_reads_after_reset :
    [0x28#8, 0x04#8, 0x00#8, 0x2C#8, 0xFC#8, 0x1C#8, 0x18#8].map (fun off => readReg (regAt off) State.reset) =
      [0x504E4743#32, 0x00000010#32, 0#32, 0#32, 0#32, 0xFFFFFFFF#32, 0#32] := by decide

/-- R99 and vectors T9, T10. -/
theorem test_type_flags :
    [0x49454E44#32, 0x52755374#32, 0x52755354#32, 0x52757374#32, 0x74455874#32, 0x52753174#32, 0x415A617A#32,
      0x405B607B#32, 0#32, 0xFFFFFFFF#32, 0x52750074#32, 0x4141415B#32].map typeFlags =
    [0x30#32, 0x3A#32, 0x32#32, 0x1E#32, 0x39#32, 0x0E#32, 0x1C#32, 0x0C#32, 0#32, 0x0F#32, 0x0A#32, 0#32] := by
  decide

/-- Vectors K13, K22 and K18: configuration writes in a frame, and a write to a read-only offset. -/
theorem test_writes :
    statusAfter (.write 0x08#8 5#32) (midFrame .parse .len 0#32 0#32) = some 0x00002011#32 ∧
    statusAfter (.write 0x0C#8 1#32) (midFrame .ser .len 0#32 0#32) = some 0x00002012#32 ∧
    statusAfter (.write 0x04#8 0xFFFFFFFF#32) State.reset = some 0x00000010#32 ∧
    statusAfter (.write 0x14#8 0xCBF43926#32) State.reset = some 0#32 := by decide

/-- Vectors K1 to K4 and K14: illegal words, checked before STATE. -/
theorem test_illegal :
    ([0x00000009#32, 0x0000000F#32, 0x00000010#32, 0x00010000#32].map fun w =>
      statusAfter (.write 0x00#8 w) State.reset) =
      [some 0x00001010#32, some 0x00001010#32, some 0x00001010#32, some 0x00001010#32] ∧
    statusAfter (.write 0x00#8 0x00000019#32) (midFrame .parse .len 0#32 0#32) = some 0x00001011#32 := by decide

/-! ### The CRC engine -/

/-- The crc_byte table of 95_test_vectors.md section 2. -/
theorem test_crc_byte :
    crcByte 0#32 0x01#8 = 0x77073096#32 ∧ crcByte 0#32 0x80#8 = 0xEDB88320#32 ∧
    crcByte 0#32 0xFF#8 = 0x2D02EF8D#32 ∧ crcByte 0xFFFFFFFF#32 0x80#8 = 0xC0459352#32 ∧
    crcByte 0x12345678#32 0x9A#8 = 0x4E16B702#32 ∧ crcByte 0xDEADBEEF#32 0x00#8 = 0x306B5257#32 := by
  decide +kernel

/-- C5, the standard check value of "123456789", by R102 and by R103's MSB-first form. -/
theorem test_crc_check_value :
    crc32 [0x31#8, 0x32#8, 0x33#8, 0x34#8, 0x35#8, 0x36#8, 0x37#8, 0x38#8, 0x39#8] = 0xCBF43926#32 ∧
    (crcMsbRemainder [0x31#8, 0x32#8, 0x33#8, 0x34#8, 0x35#8, 0x36#8, 0x37#8, 0x38#8, 0x39#8]).reverse
      ^^^ 0xFFFFFFFF#32 = 0xCBF43926#32 := by decide +kernel

/-! ### One step of each command -/

/-- K20. -/
theorem test_nop : statusAfter (.write 0x00#8 0x00000000#32) { State.reset with err := .illegal } =
    some 0x00000010#32 := by decide
/-- K5. -/
theorem test_nop_operand : statusAfter (.write 0x00#8 0x00000100#32) State.reset = some 0x00001010#32 := by decide

/-- R104's example, on an engine that has run. -/
theorem test_crcInit : (nextOf (exec .crcInit { State.reset with crcState := 0x51BD9F7D#32 })).map (readReg .crcValue) =
    some 0#32 := by decide
/-- K10. -/
theorem test_crcInit_in_frame : statusAfter (.write 0x00#8 0x00000001#32) (midFrame .parse .len 0#32 0#32) =
    some 0x00002011#32 := by decide

/-- The second step of the trace of C6. -/
theorem test_crcFeed : (nextOf (exec (.crcFeed 0x45#8) { State.reset with crcState := 0x22FDE946#32 })).map
    (readReg .crcRaw) = some 0x992BAC53#32 := by decide +kernel
/-- R105: a zero byte changes the register. -/
theorem test_crcFeed_zero : (nextOf (exec (.crcFeed 0#8) State.reset)).map (readReg .crcRaw) = some 0x2DFD1072#32 := by
  decide +kernel

/-- R121's example, with a LENGTH and a TYPE to lose. -/
theorem test_parseBegin : (nextOf (exec .parseBegin { State.reset with length := 5#32, chunkType := 6#32 })).map
    (fun t => (t.status, t.length, t.chunkType)) = some (0x00000011#32, 0#32, 0#32) := by decide
/-- K12. -/
theorem test_parseBegin_twice : statusAfter (.write 0x00#8 0x00000003#32) (midFrame .parse .len 0#32 0#32) =
    some 0x00002011#32 := by decide

/-- The last byte of V1 and of V2. -/
theorem test_parseFeed_last :
    let s := { midFrame .parse .crc 3#32 0#32 with
      chunkType := 0x49454E44#32, crcState := 0x51BD9F7D#32, crcExpect := 0x00AE4260#32 }
    statusAfter (.write 0x00#8 0x00008204#32) s = some 0x00000110#32 ∧
    statusAfter (.write 0x00#8 0x00008304#32) s = some 0x00000200#32 := by decide +kernel
/-- The last length byte of R122's example, and the last type byte of an IEND frame (STATUS 0x0000000D in P2). -/
theorem test_parseFeed_fields :
    (nextOf (exec (.parseFeed 0x0D#8) (midFrame .parse .len 3#32 0#32))).map
      (fun t => (t.length, t.field, t.count, t.outByte)) = some (13#32, .type, 0#32, 0x0D#8) ∧
    (nextOf (exec (.parseFeed 0x44#8) { midFrame .parse .type 3#32 0#32 with
      chunkType := 0x0049454E#32, crcState := 0x639F4775#32 })).map
      (fun t => (t.status, t.chunkType, t.crcState)) = some (0x0000000D#32, 0x49454E44#32, 0x51BD9F7D#32) := by
  decide +kernel

/-- The end of V13. -/
theorem test_parseEnd : statusAfter (.write 0x00#8 0x00000005#32)
    { midFrame .parse .data 5#32 12#32 with crcState := 0x129FDF37#32 } = some 0x00000308#32 := by decide
/-- K8. -/
theorem test_parseEnd_idle : statusAfter (.write 0x00#8 0x00000005#32) State.reset = some 0x00002010#32 := by decide

/-- R141's example, with values to keep and an engine to initialise. -/
theorem test_serBegin : (nextOf (exec .serBegin { State.reset with
      length := 12#32, chunkType := 0x52755374#32, crcState := 0#32 })).map
    (fun t => (t.status, t.length, t.chunkType, t.crcState)) =
    some (0x00000012#32, 12#32, 0x52755374#32, 0xFFFFFFFF#32) := by decide
/-- K11. -/
theorem test_serBegin_in_frame : statusAfter (.write 0x00#8 0x00000006#32) (midFrame .parse .len 0#32 0#32) =
    some 0x00002011#32 := by decide

/-- Byte 21 of W2, the first CRC byte, and its last byte. -/
theorem test_serStep_crc :
    (nextOf (exec (.serStep 0x5A#8) { midFrame .ser .crc 0#32 12#32 with crcState := 0x2FBD1F12#32 })).map
      (fun t => (t.outByte, t.count)) = some (0xD0#8, 1#32) ∧
    (nextOf (exec (.serStep 0x5A#8) { midFrame .ser .crc 3#32 12#32 with crcState := 0x2FBD1F12#32 })).map
      (fun t => (t.outByte, t.status)) = some (0xED#8, 0x00000100#32) := by decide +kernel
/-- Bytes 4 and 5 of W2, and a DATA byte of W3. -/
theorem test_serStep_fields :
    (nextOf (exec (.serStep 0xFF#8) (midFrame .ser .len 3#32 12#32))).map
      (fun t => (t.outByte, t.field, t.count)) = some (0x0C#8, .type, 0#32) ∧
    (nextOf (exec (.serStep 0xFF#8) { midFrame .ser .type 0#32 12#32 with chunkType := 0x52755374#32 })).map
      (fun t => (t.outByte, t.field, t.count)) = some (0x52#8, .type, 1#32) ∧
    (nextOf (exec (.serStep 0x00#8) { midFrame .ser .data 0#32 1#32 with crcState := 0x2B7BF6C3#32 })).map
      (fun t => (t.outByte, t.field, t.crcValue)) = some (0x00#8, .crc, 0xFDB91703#32) := by decide +kernel

/-- The end of K15. -/
theorem test_abort : statusAfter (.write 0x00#8 0x00000008#32) (midFrame .parse .len 1#32 0#32) =
    some 0x00000410#32 := by decide
/-- The end of K17: the RESULT of a frame that has ended survives. -/
theorem test_abort_idle : statusAfter (.write 0x00#8 0x00000008#32) { State.reset with result := .truncated } =
    some 0x00000310#32 := by decide

/-! ### The notation (R80 to R82) -/

theorem test_line_operands :
    parseLine "CRC.FEED 'I'".toList = some (.command (.crcFeed 0x49#8)) ∧
    parseLine "PARSE.FEED 0xae ; a byte".toList = some (.command (.parseFeed 0xAE#8)) ∧
    parseLine "SER.STEP 255".toList = some (.command (.serStep 0xFF#8)) ∧
    parseLine "SER.STEP".toList = some (.command (.serStep 0x00#8)) ∧
    parseLine "SER.STEP 256".toList = none ∧ parseLine "NOP 1".toList = none := by decide +kernel
theorem test_line_registers :
    parseLine "WR TYPE, \"RuSt\"".toList = some (.wr 0x0C#8 0x52755374#32) ∧
    parseLine "WR RSV_0x80, 0x12345678".toList = some (.wr 0x80#8 0x12345678#32) ∧
    parseLine "RD STATUS = 0x00000010".toList = some (.rd 0x04#8 (some 0x10#32)) ∧
    parseLine "RD TYPE = \"RuSt\"".toList = some (.rd 0x0C#8 (some 0x52755374#32)) ∧
    parseLine "RD LENGTH = \"RuSt\"".toList = none ∧
    parseLine "RESET".toList = some .reset := by decide +kernel
theorem test_pseudo :
    assemble ["CRC.STR \"IE\"".toList, "CHECK 1".toList] =
      some [.write 0x00#8 0x00004902#32, .write 0x00#8 0x00004502#32, .write 0x14#8 1#32, .read 0x04#8] ∧
    assemble ["PARSE.BYTES 0x00, 13".toList] = some [.write 0x00#8 0x00000004#32, .write 0x00#8 0x00000D04#32] ∧
    (assemble ["SER.HDR".toList, "SER.DATA 'H'".toList, "SER.TAIL".toList]).map List.length = some 13 := by
  decide +kernel

/-! ### Values that meet the hypotheses of the statements, clause by clause -/

theorem witness_LegalWordsAndIllegalWords :
    (¬ ∃ i, decode 0x00000009#32 = .ok i) ∧ (∃ i, decode 0x00000008#32 = .ok i) ∧
    (∃ i, decode 0x0000FF07#32 = .ok i) :=
  ⟨by rintro ⟨i, h⟩; exact absurd (h.symm.trans (by decide : decode 0x00000009#32 = .error .reservedOp)) (by simp),
    ⟨.abort, by decide⟩, ⟨.serStep 0xFF#8, by decide⟩⟩
theorem witness_ReservedBitsOperandsAndOpsAreIllegal :
    (0x00000010#32).extractLsb' 4 4 ≠ 0#4 ∧ (0x80000000#32).extractLsb' 16 16 ≠ 0#16 ∧
    ((0x00000108#32).extractLsb' 8 8 ≠ 0#8 ∧ (0x00000108#32).extractLsb' 0 4 = 8#4) ∧
    9#4 ≤ (0x00000009#32).extractLsb' 0 4 ∧ 9#4 ≤ (0x0000000F#32).extractLsb' 0 4 := by decide
theorem witness_StepRunsTheDecodedCommand :
    let s := { State.reset with pending := [.write 0x03#8 0x00004902#32, .reset] }
    s.pending = .write 0x03#8 0x00004902#32 :: [.reset] ∧ (0x03#8).extractLsb' 2 6 = 0#6 ∧
    decode 0x00004902#32 = .ok (.crcFeed 0x49#8) := by decide
theorem witness_WithFetchWordRunsItsCommand :
    decodeTableWord 32 (0x0000FF04#32).toNat = some (.parseFeed 0xFF#8) := by decide
theorem witness_StepIsTotal :
    (∀ i, decode 0x00010000#32 ≠ .ok i) ∧ decode 0x00000004#32 = .ok (.parseFeed 0#8) ∧
    acceptedIn (.parseFeed 0#8) State.reset.opState = false :=
  ⟨by intro i h; exact absurd (h.symm.trans (by decide : decode 0x00010000#32 = .error .rsv1Set)) (by simp),
    by decide, by decide⟩
theorem witness_StepsPerformTransactionsInOrder :
    transactAll [.read 0x28#8, .reset] { State.reset with pending := [.reset] } =
      .next { State.reset with pending := [.reset], reads := [0x504E4743#32] } := rfl
theorem witness_NothingElsePersists : SameBlock State.reset { State.reset with pending := [.reset], reads := [1#32] } :=
  ⟨rfl, rfl, rfl, rfl, rfl, rfl, rfl, rfl, rfl, rfl⟩
theorem witness_OffsetLowBitsDoNotReachThePort : (0x08#8).extractLsb' 2 6 = (0x0B#8).extractLsb' 2 6 := by decide
theorem witness_IgnoredWrites : 0x2C#8 ≤ 0x2C#8 ∧ 0x2C#8 ≤ 0xFF#8 ∧ ¬ 0x2C#8 ≤ 0x28#8 := by decide
theorem witness_ConfigurationWrites : State.reset.opState = .idle ∧ (midFrame .parse .len 0#32 0#32).opState = .parse ∧
    (midFrame .ser .crc 3#32 0#32).opState = .ser := by decide
theorem witness_AcceptanceTable :
    acceptedIn (.serStep 0#8) (midFrame .ser .data 0#32 1#32).opState = true ∧
    acceptedIn (.serStep 0#8) State.reset.opState = false ∧ State.reset.opState = .idle ∧
    (midFrame .ser .data 0#32 1#32).opState ≠ .idle := by decide
theorem witness_ErrReportsTheMostRecentWrite :
    (∀ i, decode 0x00000020#32 ≠ .ok i) ∧ decode 0x00000003#32 = .ok .parseBegin ∧
    (regAt 0xFC#8 ≠ .cmd ∧ regAt 0xFC#8 ≠ .length ∧ regAt 0xFC#8 ≠ .chunkType ∧ regAt 0xFC#8 ≠ .crcExpect) ∧
    (regAt 0x04#8 ≠ .cmd ∧ regAt 0x04#8 ≠ .length ∧ regAt 0x04#8 ≠ .chunkType ∧ regAt 0x04#8 ≠ .crcExpect) :=
  ⟨by intro i h; exact absurd (h.symm.trans (by decide : decode 0x00000020#32 = .error .rsv0Set)) (by simp),
    by decide, by decide, by decide⟩
theorem witness_RefusedWritesChangeOnlyErr :
    ReportsInErr (.write 0x08#8 5#32) ∧
    transact (.write 0x08#8 5#32) (midFrame .parse .len 0#32 0#32) =
      .next { midFrame .parse .len 0#32 0#32 with err := .sequence } ∧
    ({ midFrame .parse .len 0#32 0#32 with err := .sequence } : State).err ≠ .none :=
  ⟨⟨0x08#8, 5#32, rfl, by decide⟩, rfl, by decide⟩
theorem witness_DecodeIsCheckedBeforeState :
    (nextOf (transact (.write 0x00#8 0x00000019#32) (midFrame .parse .len 0#32 0#32))).map State.err = some .illegal ∧
    (nextOf (transact (.write 0x00#8 0x00000003#32) (midFrame .parse .len 0#32 0#32))).map State.err =
      some .sequence := by decide
theorem witness_illegal_commands :
    ((0x00000100#32).extractLsb' 0 4 = 0#4 ∧ 0x00000100#32 ≠ 0#32) ∧
    ((0x80000001#32).extractLsb' 0 4 = 1#4 ∧ 0x80000001#32 ≠ 1#32) ∧
    ((0x00000012#32).extractLsb' 0 4 = 2#4 ∧ (0x00000012#32).extractLsb' 4 4 ≠ 0#4) ∧
    ((0x00000103#32).extractLsb' 0 4 = 3#4 ∧ 0x00000103#32 ≠ 3#32) ∧
    ((0x00010004#32).extractLsb' 0 4 = 4#4 ∧ (0x00010004#32).extractLsb' 16 16 ≠ 0#16) ∧
    ((0x00000085#32).extractLsb' 0 4 = 5#4 ∧ 0x00000085#32 ≠ 5#32) ∧
    ((0x0000FF06#32).extractLsb' 0 4 = 6#4 ∧ 0x0000FF06#32 ≠ 6#32) ∧
    ((0x00000087#32).extractLsb' 0 4 = 7#4 ∧ (0x00000087#32).extractLsb' 4 4 ≠ 0#4) := by decide
theorem witness_CrcInitCommand_CrcFeedCommand_ParseBeginCommand_SerBeginCommand :
    State.reset.opState = .idle ∧ (midFrame .parse .len 0#32 0#32).opState = .parse ∧
    (midFrame .ser .len 0#32 0#32).opState = .ser := by decide
/-- One state for each clause of PARSE_FEED, at the places where the field ends and where it goes on. -/
theorem witness_ParseFeedCommand :
    (midFrame .parse .len 3#32 0#32).opState = .parse ∧ (midFrame .parse .len 3#32 0#32).field = .len ∧
    (midFrame .parse .type 3#32 0#32).field = .type ∧ (midFrame .parse .type 2#32 1#32).field = .type ∧
    (midFrame .parse .data 0#32 1#32).field = .data ∧
    ((midFrame .parse .crc 2#32 0#32).field = .crc ∧ (midFrame .parse .crc 2#32 0#32).count ≠ 3#32) ∧
    ((midFrame .parse .crc 3#32 0#32).field = .crc ∧ (midFrame .parse .crc 3#32 0#32).count = 3#32) ∧
    State.reset.opState = .idle ∧ (midFrame .ser .data 0#32 1#32).opState = .ser := by decide
theorem witness_ParserAssemblesFieldsBigEndian : State.reset.opState = .idle := by decide
theorem witness_CompletionGivesTheVerdict :
    (midFrame .parse .crc 3#32 0#32).opState = .parse ∧ (midFrame .parse .crc 3#32 0#32).field = .crc ∧
    (midFrame .parse .crc 3#32 0#32).count = 3#32 := by decide
theorem witness_ParseEndCommand_AbortCommand :
    (midFrame .parse .data 0#32 16#32).opState = .parse ∧ (midFrame .ser .len 2#32 0#32).opState = .ser ∧
    State.reset.opState = .idle := by decide
/-- One state for each clause of SER_STEP. -/
theorem witness_SerStepCommand :
    ((midFrame .ser .len 3#32 12#32).opState = .ser ∧ (midFrame .ser .len 3#32 12#32).field = .len) ∧
    (midFrame .ser .type 3#32 0#32).field = .type ∧ (midFrame .ser .data 0xFFFFFFFE#32 0xFFFFFFFF#32).field = .data ∧
    (midFrame .ser .crc 3#32 0#32).field = .crc ∧ (midFrame .ser .crc 0#32 0#32).field ≠ .data ∧
    State.reset.opState = .idle ∧ (midFrame .parse .len 0#32 0#32).opState = .parse := by decide
/-- A command that changes everything its clause lets it change. -/
theorem witness_CommandsChangeOnlyTheirRegisters :
    (nextOf (exec (.parseFeed 0x82#8) { midFrame .parse .crc 3#32 0#32 with
      crcState := 0x51BD9F7D#32, crcExpect := 0x00AE4260#32 })).map (fun t => (t.opState, t.field, t.count, t.crcExpect, t.outByte, t.result)) =
    some (.idle, .len, 0#32, 0xAE426082#32, 0x82#8, .ok) := by decide +kernel
theorem witness_Issues : Issues (.write 0x00#8 0x00000008#32) .abort ∧ Issues (.write 0x00#8 0x00000003#32) .parseBegin ∧
    Issues (.write 0x00#8 0x00000006#32) .serBegin ∧ Issues (.write 0x00#8 0x00000005#32) .parseEnd ∧
    Issues (.write 0x00#8 0x00008204#32) (.parseFeed 0x82#8) ∧ Issues (.write 0x00#8 0x00000007#32) (.serStep 0x00#8) :=
  ⟨⟨0x00#8, by decide, rfl⟩, ⟨0x00#8, by decide, rfl⟩, ⟨0x00#8, by decide, rfl⟩, ⟨0x00#8, by decide, rfl⟩,
    ⟨0x00#8, by decide, rfl⟩, ⟨0x00#8, by decide, rfl⟩⟩
/-- STATE entered by each BEGIN and left by each way R21 names. -/
theorem witness_HowStateIsEnteredAndLeft :
    (nextOf (transact (commandWrite .parseBegin) State.reset)).map State.opState = some .parse ∧
    (nextOf (transact (commandWrite .serBegin) State.reset)).map State.opState = some .ser ∧
    (nextOf (transact (commandWrite .parseEnd) (midFrame .parse .len 0#32 0#32))).map State.opState = some .idle ∧
    (nextOf (transact (commandWrite .abort) (midFrame .ser .len 0#32 0#32))).map State.opState = some .idle ∧
    (nextOf (transact (commandWrite (.serStep 0#8)) (midFrame .ser .crc 3#32 0#32))).map State.opState = some .idle := by
  decide +kernel
/-- RESULT written with each of its values. -/
theorem witness_WhoWritesResult :
    (nextOf (transact (commandWrite .parseBegin) { State.reset with result := .ok })).map State.result = some .none ∧
    (nextOf (transact (commandWrite .parseEnd) (midFrame .parse .len 0#32 0#32))).map State.result = some .truncated ∧
    (nextOf (transact (commandWrite .abort) (midFrame .ser .len 0#32 0#32))).map State.result = some .aborted ∧
    (nextOf (transact (commandWrite (.parseFeed 1#8)) (midFrame .parse .crc 3#32 0#32))).map State.result =
      some .crcMismatch ∧
    (nextOf (transact (commandWrite (.serStep 0#8)) (midFrame .ser .crc 3#32 0#32))).map State.result = some .ok := by
  decide +kernel
/-- A transaction that is neither Reset nor a BEGIN, in IDLE after a frame. -/
theorem witness_ResultPersistsAndNothingIsStuck_ParsedValuesStay :
    ({ State.reset with result := .ok } : State).opState = .idle ∧ Transaction.write 0x08#8 1#32 ≠ .reset ∧
    ¬ Issues (.write 0x08#8 1#32) .parseBegin ∧ ¬ Issues (.write 0x08#8 1#32) .serBegin := by
  refine ⟨by decide, by decide, ?_, ?_⟩ <;>
  · rintro ⟨off, h, e⟩
    injection e with e
    subst e
    exact absurd h (by decide)
/-- A type byte parsed and a data byte serialized. -/
theorem witness_FrameOwnsTheCrcEngine :
    ((midFrame .parse .type 0#32 0#32).opState ≠ .idle ∧ (midFrame .parse .type 0#32 0#32).field = .type ∧
      Issues (.write 0x00#8 0x00004904#32) (.parseFeed 0x49#8)) ∧
    ((midFrame .ser .data 0#32 1#32).opState = .ser ∧ (midFrame .ser .data 0#32 1#32).field = .data ∧
      Issues (.write 0x00#8 0x00004807#32) (.serStep 0x48#8)) :=
  ⟨⟨by decide, by decide, 0x00#8, by decide, rfl⟩, by decide, by decide, 0x00#8, by decide, rfl⟩
/-- A state in the middle of each field that meets the invariant, with the next byte pending; and a step from it. -/
theorem witness_StepKeepsFrameInvariant :
    FrameInvariant { midFrame .parse .len 3#32 0x00FFFFFF#32 with pending := [commandWrite (.parseFeed 0xFF#8)] } ∧
    FrameInvariant { midFrame .parse .type 3#32 1#32 with chunkType := 0x00FFFFFF#32 } ∧
    FrameInvariant (midFrame .parse .data 0xFFFFFFFE#32 0xFFFFFFFF#32) ∧
    FrameInvariant { midFrame .parse .crc 3#32 0#32 with crcExpect := 0x00FFFFFF#32 } ∧
    FrameInvariant (midFrame .ser .data 0#32 1#32) ∧
    (nextOf (step { midFrame .parse .len 3#32 0x00FFFFFF#32 with
      pending := [commandWrite (.parseFeed 0xFF#8)] })).map State.length = some 0xFFFFFFFF#32 :=
  ⟨by decide, by decide, by decide, by decide, by decide, by decide +kernel⟩
/-- The place a run of transactions from Reset reaches. -/
def placeAfter (ts : List Transaction) : Option (OpState × Field × Word) :=
  (nextOf (transactAll ts State.reset)).map fun s => (s.opState, s.field, s.count)

/-- Runs that reach LEN, TYPE, DATA and CRC of a parse, the last two by a frame with one data byte and by one with none. -/
theorem witness_ReachableStatesMeetTheInvariants :
    placeAfter (parseRun [0x00#8]) = some (.parse, .len, 1#32) ∧
    placeAfter (parseRun [0x00#8, 0x00#8, 0x00#8, 0x01#8]) = some (.parse, .type, 0#32) ∧
    placeAfter (parseRun [0x00#8, 0x00#8, 0x00#8, 0x01#8, 0x49#8, 0x45#8, 0x4E#8, 0x44#8]) =
      some (.parse, .data, 0#32) ∧
    placeAfter (parseRun [0x00#8, 0x00#8, 0x00#8, 0x00#8, 0x49#8, 0x45#8, 0x4E#8, 0x44#8]) =
      some (.parse, .crc, 0#32) := by decide +kernel
/-- The same for a serialization: LEN, TYPE, DATA of a frame with one data byte, CRC of one with none. -/
theorem witness_ReachableStatesMeetTheInvariants_ser :
    placeAfter [commandWrite .serBegin] = some (.ser, .len, 0#32) ∧
    placeAfter ([commandWrite .serBegin] ++ List.replicate 4 (commandWrite (.serStep 0#8))) =
      some (.ser, .type, 0#32) ∧
    placeAfter ([.write 0x08#8 1#32, commandWrite .serBegin] ++ List.replicate 8 (commandWrite (.serStep 0#8))) =
      some (.ser, .data, 0#32) ∧
    placeAfter ([commandWrite .serBegin] ++ List.replicate 8 (commandWrite (.serStep 0#8))) =
      some (.ser, .crc, 0#32) := by decide +kernel
theorem witness_CountNeverOverflows :
    ReachableInvariant (midFrame .parse .data 0xFFFFFFFE#32 0xFFFFFFFF#32) ∧
    (midFrame .parse .data 0xFFFFFFFE#32 0xFFFFFFFF#32).opState ≠ .idle ∧
    (nextOf (exec (.parseFeed 0#8) (midFrame .parse .data 0xFFFFFFFE#32 0xFFFFFFFF#32))).map State.count = some 0#32 ∧
    ReachableInvariant (midFrame .ser .len 2#32 0#32) ∧
    (nextOf (exec (.serStep 0#8) (midFrame .ser .len 2#32 0#32))).map State.count = some 3#32 :=
  ⟨by decide, by decide, by decide +kernel, by decide, by decide +kernel⟩
theorem witness_FeedingBytesComputesCrc32_CheckerMatchesExactlyTheCrc : State.reset.opState = .idle := by decide
/-- A frame with one data byte; the first and the last byte R108 covers. -/
theorem witness_SingleBitErrorsAreDetected : [0x00#8].length = (1#32).toNat ∧ State.reset.opState = .idle ∧ 4 ≤ 4 ∧
    4 < 12 + (1#32).toNat ∧ 12 < 12 + (1#32).toNat := by decide
/-- The IEND frame of V1: a byte string that is a frame, that frame with a byte more, and that frame without its last. -/
theorem witness_VerdictLaw :
    let p := [0x00#8, 0x00#8, 0x00#8, 0x00#8, 0x49#8, 0x45#8, 0x4E#8, 0x44#8, 0xAE#8, 0x42#8, 0x60#8, 0x82#8]
    State.reset.opState = .idle ∧ (4 ≤ p.length ∧ 12 + (bigEndian (p.take 4)).toNat ≤ p.length) ∧
    p.length = 12 + (bigEndian (p.take 4)).toNat ∧
    12 + (bigEndian ((p ++ [0x00#8]).take 4)).toNat < (p ++ [0x00#8]).length ∧
    ¬ (4 ≤ (p.take 11).length ∧ 12 + (bigEndian ((p.take 11).take 4)).toNat ≤ (p.take 11).length) := by decide +kernel
/-- V1's bytes are the frame of (0, IEND, no data). -/
theorem witness_ParserAcceptsExactlyFrames :
    State.reset.opState = .idle ∧ ([] : List Byte).length = (0#32).toNat ∧
    [0x00#8, 0x00#8, 0x00#8, 0x00#8, 0x49#8, 0x45#8, 0x4E#8, 0x44#8, 0xAE#8, 0x42#8, 0x60#8, 0x82#8] =
      frameBytes 0#32 0x49454E44#32 [] ++ [] := by decide +kernel
/-- The operands of a serialization with one data byte. -/
theorem witness_SerializerPutsOutTheFrame_ParseAndSerializeRoundTrip :
    (List.replicate 13 0x5A#8).length = 12 + (1#32).toNat ∧ State.reset.opState = .idle := by decide
/-- The parse of V1, whose bytes serialize back: `transactAll (parseRun p)` ends with OK and no error. -/
theorem witness_ParseAndSerializeRoundTrip_parsed :
    let p := [0x00#8, 0x00#8, 0x00#8, 0x00#8, 0x49#8, 0x45#8, 0x4E#8, 0x44#8, 0xAE#8, 0x42#8, 0x60#8, 0x82#8]
    (nextOf (transactAll (parseRun p) State.reset)).map (fun t => (t.result, t.err)) = some (.ok, .none) ∧
    p.length = p.length ∧ (p.drop 8).take (p.length - 12) = (p.drop 8).take (p.length - 12) := by decide +kernel

end Sys2Proof.Tests
end

section
/-! Proofs of the statements of 00_scope.md: the bytes of a word (R10, R52), the step as one transaction (R6) and its
totality (R7). -/

namespace Sys2Proof.Machine

/-! ### The bytes of a word -/

theorem wordBytes_eq_byteOf (v : Word) :
    wordBytes v = [byteOf v 0#32, byteOf v 1#32, byteOf v 2#32, byteOf v 3#32] := by
  simp [wordBytes, byteOf]

@[simp] theorem wordBytes_append (a b c d : Byte) : wordBytes (a ++ b ++ c ++ d) = [a, b, c, d] := by
  have ha : (a ++ b ++ c ++ d).extractLsb' 24 8 = a := by
    rw [BitVec.extractLsb'_append_eq_of_le (by decide), BitVec.extractLsb'_append_eq_of_le (by decide),
      BitVec.extractLsb'_append_eq_of_le (by decide), BitVec.extractLsb'_eq_self]
  have hb : (a ++ b ++ c ++ d).extractLsb' 16 8 = b := by
    rw [BitVec.extractLsb'_append_eq_of_le (by decide), BitVec.extractLsb'_append_eq_of_le (by decide),
      BitVec.extractLsb'_append_eq_right]
  have hc : (a ++ b ++ c ++ d).extractLsb' 8 8 = c := by
    rw [BitVec.extractLsb'_append_eq_of_le (by decide), BitVec.extractLsb'_append_eq_right]
  have hd : (a ++ b ++ c ++ d).extractLsb' 0 8 = d := BitVec.extractLsb'_append_eq_right
  rw [wordBytes, ha, hb, hc, hd]

@[simp] theorem bigEndian_wordBytes (v : Word) : bigEndian (wordBytes v) = v := by
  obtain ⟨a, b, c, d, rfl⟩ := exists_four_bytes v
  rw [wordBytes_append, bigEndian_four]

/-- Settles O18: `byte(v, 0..3)` are the entries of `wordBytes v`, which takes an appended word apart again. -/
theorem bigEndianBytes : Obligations.BigEndianBytes := by
  unfold Obligations.BigEndianBytes
  refine ⟨fun b0 b1 b2 b3 => ?_, bigEndian_wordBytes⟩
  have bytes := (wordBytes_eq_byteOf _).symm.trans (wordBytes_append b0 b1 b2 b3)
  simp only [List.cons.injEq, and_true] at bytes
  obtain ⟨h0, h1, h2, h3⟩ := bytes
  exact ⟨h0, h1, h2, h3, bigEndian_four b0 b1 b2 b3⟩

/-! ### Writes to CMD -/

theorem transact_write_cmd_of_decode_ok {off : Offset} {w : Word} {i : Instr} (hr : regAt off = .cmd)
    (hd : decode w = .ok i) (s : State) : transact (.write off w) s = exec i s := by
  rw [transact_write, hr, writeReg, writeCmd, hd]

theorem transact_write_cmd_of_decode_error {off : Offset} {w : Word} {e : IllegalWord} (hr : regAt off = .cmd)
    (hd : decode w = .error e) (s : State) : transact (.write off w) s = .next (setErr .illegal s) := by
  rw [transact_write, hr, writeReg, writeCmd, hd]

/-! ### The step -/

theorem step_of_pending_nil {s : State} (h : s.pending = []) : step s = .next s := by
  rw [step, stepPending, h]

theorem step_of_pending_cons {s : State} {x : Transaction} {ts : List Transaction} (h : s.pending = x :: ts) :
    step s = transact x { s with pending := ts } := by
  rw [step, stepPending, h]

/-- Settles O7: the step performs the head of `pending`, and a legal word written to CMD runs its command. -/
theorem stepRunsTheDecodedCommand : Obligations.StepRunsTheDecodedCommand := by
  unfold Obligations.StepRunsTheDecodedCommand
  intro s off w ts i hp hslot hd
  rw [step_of_pending_cons hp]
  exact transact_write_cmd_of_decode_ok ((regAt_eq_cmd_iff off).2 hslot) hd _

/-! ### Totality -/

theorem acceptIn_total (states : List OpState) (effect : State → State) (s : State) :
    ∃ t, acceptIn states effect s = .next t := by
  by_cases h : s.opState ∈ states
  · exact ⟨_, acceptIn_of_mem h⟩
  · exact ⟨_, acceptIn_of_not_mem h⟩

theorem transact_total (x : Transaction) (s : State) : ∃ t, transact x s = .next t := by
  obtain ⟨-, h⟩ | ⟨_, -, h⟩ | ⟨_, _, i, -, -, -, h⟩ | ⟨_, _, _, -, -, -, h⟩ | ⟨_, _, -, -, h⟩ | ⟨_, _, -, -, h⟩ |
    ⟨_, _, -, -, h⟩ | ⟨_, _, -, -, -, -, -, h⟩ := transact_cases x s
  · exact ⟨_, h⟩ -- Reset
  · exact ⟨_, h⟩ -- a Read
  · exact ⟨_, h.trans (exec_eq i s)⟩ -- a legal word to CMD
  · exact ⟨_, h⟩ -- an illegal word to CMD
  · rw [h]; exact acceptIn_total _ _ s -- LENGTH
  · rw [h]; exact acceptIn_total _ _ s -- TYPE
  · rw [h]; exact acceptIn_total _ _ s -- CRC_EXPECT
  · exact ⟨_, h⟩ -- an ignored write

theorem step_total (s : State) : ∃ t, step s = .next t := by
  cases h : s.pending with
  | nil => exact ⟨s, step_of_pending_nil h⟩
  | cons x ts => rw [step_of_pending_cons h]; exact transact_total x _

/-- Settles O9: every branch of a transaction ends in `.next`; the two error answers are the rules for a word that does
not decode and for a command refused in its STATE. -/
theorem stepIsTotal : Obligations.StepIsTotal := by
  unfold Obligations.StepIsTotal
  refine ⟨step_total, transact_total, fun w s hw => ?illegal, fun w s i hd ha => ?refused⟩
  case illegal =>
    cases hd : decode w with
    | ok i => exact absurd hd (hw i)
    | error e => exact transact_write_cmd_of_decode_error regAt_cmd hd s
  case refused =>
    rw [transact_write_cmd_of_decode_ok regAt_cmd hd]
    exact exec_refused ha

end Sys2Proof.Machine
end

section
/-! Proofs of the statements of 10_state.md about one transaction: what it can do to the block, the outcome it leaves in
ERR (R30), and how STATE (R21) and RESULT (R29) move. -/

namespace Sys2Proof.Machine

/-! ### A word that decodes is its command's own word (R75, R76) -/

/-- Down the opcode map of R75: a row that answers a command gives it the OP of the row, and the operand or none. -/
theorem packWord_eq_encode_of_decodeOp_ok {op : BitVec 4} {imm : Byte} {i : Instr} (h : decodeOp op imm = .ok i) :
    packWord op imm = encode i := by
  unfold decodeOp withoutOperand at h
  repeat' split at h
  all_goals
    cases h <;>
    · subst_vars
      rfl

theorem eq_encode_of_decode_ok {w : Word} {i : Instr} (h : decode w = .ok i) : w = encode i := by
  obtain ⟨h1, h0, hop⟩ := decode_ok_fields h
  exact (eq_packWord_of_rsv w h1 h0).trans (packWord_eq_encode_of_decodeOp_ok hop)

theorem issues_of_decode_ok {off : Offset} {w : Word} {i : Instr} (hr : regAt off = .cmd) (hd : decode w = .ok i) :
    Issues (.write off w) i :=
  ⟨off, (regAt_eq_cmd_iff off).1 hr, by rw [eq_encode_of_decode_ok hd]⟩

/-! ### What a transaction can do to the block -/

/-- What a transaction that answers `u` did: a Reset, a Read, an accepted command, a write refused or illegal, a write
of a configuration register in IDLE, or nothing. -/
theorem transact_next {x : Transaction} {s u : State} (h : transact x s = .next u) :
    (x = .reset ∧ u = resetBlock s) ∨
    (∃ v, u = recordRead v s) ∨
    (∃ i, Issues x i ∧ acceptedIn i s.opState = true ∧ u = setErr .none (effectOf i s)) ∨
    (∃ e, u = setErr e s) ∨
    (s.opState = .idle ∧ ∃ l t c, u = setErr .none { s with length := l, chunkType := t, crcExpect := c }) ∨
    u = s := by
  obtain ⟨hx, ht⟩ | ⟨off, -, ht⟩ | ⟨off, w, i, rfl, hr, hd, ht⟩ | ⟨off, w, e, -, -, -, ht⟩ | ⟨off, v, -, -, ht⟩ |
    ⟨off, v, -, -, ht⟩ | ⟨off, v, -, -, ht⟩ | ⟨off, v, -, -, -, -, -, ht⟩ := transact_cases x s <;> rw [ht] at h
  · cases h; exact .inl ⟨hx, rfl⟩ -- Reset
  · cases h; exact .inr (.inl ⟨_, rfl⟩) -- a Read
  · obtain ⟨ha, rfl⟩ | ⟨-, rfl⟩ := exec_next h -- a legal word to CMD
    · exact .inr (.inr (.inl ⟨i, issues_of_decode_ok hr hd, ha, rfl⟩))
    · exact .inr (.inr (.inr (.inl ⟨_, rfl⟩)))
  · cases h; exact .inr (.inr (.inr (.inl ⟨_, rfl⟩))) -- an illegal word to CMD
  iterate 3
    · obtain ⟨hidle, rfl⟩ | ⟨-, rfl⟩ := acceptIn_next h -- LENGTH, TYPE, CRC_EXPECT
      · exact .inr (.inr (.inr (.inr (.inl ⟨by simpa using hidle, _, _, _, rfl⟩))))
      · exact .inr (.inr (.inr (.inl ⟨_, rfl⟩)))
  · cases h; exact .inr (.inr (.inr (.inr (.inr rfl)))) -- an ignored write

/-! ### ERR (R30) -/

theorem acceptIn_err {states : List OpState} {effect : State → State} {s u : State}
    (h : acceptIn states effect s = .next u) : u.err = if s.opState ∈ states then .none else .sequence := by
  obtain ⟨hin, rfl⟩ | ⟨hout, rfl⟩ := acceptIn_next h
  · rw [if_pos hin]; rfl
  · rw [if_neg hout]; rfl

theorem exec_err {i : Instr} {s u : State} (h : exec i s = .next u) :
    u.err = if acceptedIn i s.opState then .none else .sequence := by
  obtain ⟨ha, rfl⟩ | ⟨ha, rfl⟩ := exec_next h <;> rw [ha] <;> rfl

/-- A write to LENGTH, TYPE or CRC_EXPECT is accepted in IDLE (R163 to R165). -/
theorem transact_write_configuration {off : Offset} (h : off = 0x08#8 ∨ off = 0x0C#8 ∨ off = 0x14#8) (v : Word)
    (s : State) : ∃ effect, transact (.write off v) s = acceptIn [.idle] effect s := by
  obtain rfl | rfl | rfl := h <;> rw [transact_write]
  · rw [regAt_length]; exact ⟨fun s => { s with length := v }, rfl⟩
  · rw [regAt_chunkType]; exact ⟨fun s => { s with chunkType := v }, rfl⟩
  · rw [regAt_crcExpect]; exact ⟨fun s => { s with crcExpect := v }, rfl⟩

/-- A write to any other offset than the four of R30 has no effect (R161). -/
theorem transact_write_ignored {off : Offset} (v : Word) (s : State) (h1 : regAt off ≠ .cmd)
    (h2 : regAt off ≠ .length) (h3 : regAt off ≠ .chunkType) (h4 : regAt off ≠ .crcExpect) :
    transact (.write off v) s = .next s := by
  rw [transact_write]
  cases hr : regAt off with
  | cmd => exact absurd hr h1
  | length => exact absurd hr h2
  | chunkType => exact absurd hr h3
  | crcExpect => exact absurd hr h4
  | status | typeFlags | crcValue | crcRaw | count | outByte | id | reserved => rfl

/-- Settles O22: each clause is the rule of its kind of transaction, read at ERR. -/
theorem errReportsTheMostRecentWrite : Obligations.ErrReportsTheMostRecentWrite := by
  unfold Obligations.ErrReportsTheMostRecentWrite
  intro x s
  obtain ⟨u, hu⟩ := transact_total x s
  refine ⟨u, hu, ?illegal, ?command, ?configuration, ?ignored, ?read⟩
  case illegal =>
    rintro w rfl hw
    cases hd : decode w with
    | ok i => exact absurd hd (hw i)
    | error e =>
      rw [transact_write_cmd_of_decode_error regAt_cmd hd] at hu
      cases hu; rfl
  case command =>
    rintro w i rfl hd
    rw [transact_write_cmd_of_decode_ok regAt_cmd hd] at hu
    exact exec_err hu
  case configuration =>
    rintro off v rfl hoff
    obtain ⟨effect, he⟩ := transact_write_configuration hoff v s
    simpa using acceptIn_err (he.symm.trans hu)
  case ignored =>
    rintro off v rfl h1 h2 h3 h4
    rw [transact_write_ignored v s h1 h2 h3 h4] at hu
    cases hu; rfl
  case read =>
    rintro off rfl
    rw [transact_read] at hu
    cases hu; rfl

/-! ### STATE and RESULT (R21, R29) -/

@[simp] theorem acceptedIn_crcInit (o : OpState) : acceptedIn .crcInit o = true ↔ o = .idle := by
  cases o <;> simp [acceptedIn]

@[simp] theorem acceptedIn_crcFeed (b : Byte) (o : OpState) : acceptedIn (.crcFeed b) o = true ↔ o = .idle := by
  cases o <;> simp [acceptedIn]

@[simp] theorem acceptedIn_parseBegin (o : OpState) : acceptedIn .parseBegin o = true ↔ o = .idle := by
  cases o <;> simp [acceptedIn]

@[simp] theorem acceptedIn_parseEnd (o : OpState) : acceptedIn .parseEnd o = true ↔ o = .parse := by
  cases o <;> simp [acceptedIn]

@[simp] theorem acceptedIn_serBegin (o : OpState) : acceptedIn .serBegin o = true ↔ o = .idle := by
  cases o <;> simp [acceptedIn]

/-- ABORT ends the frame in progress, if there is one. -/
theorem abortFrame_cases (s : State) :
    (s.opState = .idle ∧ abortFrame s = s) ∨ (s.opState ≠ .idle ∧ abortFrame s = endFrame .aborted s) := by
  unfold abortFrame
  cases ho : s.opState <;> simp

/-- A PARSE_FEED ends the frame at the fourth CRC byte; before that it keeps STATE and RESULT. -/
theorem parseByte_ends_or_goes_on (b : Byte) (s : State) :
    (s.field = .crc ∧ s.count = 3#32 ∧ (parseByte b s).opState = .idle ∧
      ((parseByte b s).result = .ok ∨ (parseByte b s).result = .crcMismatch)) ∨
    ((parseByte b s).opState = s.opState ∧ (parseByte b s).result = s.result) := by
  cases hf : s.field with
  | len => rw [parseByte_len hf]; exact .inr ⟨rfl, rfl⟩
  | type => rw [parseByte_type hf]; exact .inr ⟨rfl, rfl⟩
  | data => rw [parseByte_data hf]; exact .inr ⟨rfl, rfl⟩
  | crc =>
    by_cases hlast : s.count = 3#32
    · rw [parseByte_crc_last hf hlast]
      exact .inl ⟨rfl, hlast, rfl, ite_eq_or_eq _ _ _⟩
    · rw [parseByte_crc hf hlast]; exact .inr ⟨rfl, rfl⟩

/-- A SER_STEP ends the frame at the fourth CRC byte; before that it keeps STATE and RESULT. -/
theorem serializeByte_ends_or_goes_on (d : Byte) (s : State) :
    (s.field = .crc ∧ s.count = 3#32 ∧ (serializeByte d s).opState = .idle ∧ (serializeByte d s).result = .ok) ∨
    ((serializeByte d s).opState = s.opState ∧ (serializeByte d s).result = s.result) := by
  cases hf : s.field with
  | len => rw [serializeByte_len hf]; exact .inr ⟨rfl, rfl⟩
  | type => rw [serializeByte_type hf]; exact .inr ⟨rfl, rfl⟩
  | data => rw [serializeByte_data hf]; exact .inr ⟨rfl, rfl⟩
  | crc =>
    by_cases hlast : s.count = 3#32
    · rw [serializeByte_crc_last hf hlast]; exact .inl ⟨rfl, hlast, rfl, rfl⟩
    · rw [serializeByte_crc hf hlast]; exact .inr ⟨rfl, rfl⟩

/-- How a transaction moves STATE and RESULT: one way for each writer of R21 and R29. -/
inductive FrameMove (x : Transaction) (s u : State) : Prop
  /-- Neither changes. -/
  | stays (state : u.opState = s.opState) (result : u.result = s.result)
  /-- Reset (R200). -/
  | reset (cause : x = .reset) (state : u.opState = .idle) (result : u.result = .none)
  /-- PARSE_BEGIN in IDLE (R121). -/
  | parseBegin (cause : Issues x .parseBegin) (before : s.opState = .idle) (state : u.opState = .parse)
      (result : u.result = .none)
  /-- SER_BEGIN in IDLE (R141). -/
  | serBegin (cause : Issues x .serBegin) (before : s.opState = .idle) (state : u.opState = .ser)
      (result : u.result = .none)
  /-- PARSE_END in PARSE (R125). -/
  | parseEnd (cause : Issues x .parseEnd) (before : s.opState = .parse) (state : u.opState = .idle)
      (result : u.result = .truncated)
  /-- ABORT during a frame (R167). -/
  | abort (cause : Issues x .abort) (before : s.opState ≠ .idle) (state : u.opState = .idle)
      (result : u.result = .aborted)
  /-- The fourth CRC byte of a parse (R123). -/
  | parsed (cause : ∃ b, Issues x (.parseFeed b)) (before : s.opState = .parse) (field : s.field = .crc)
      (count : s.count = 3#32) (state : u.opState = .idle) (result : u.result = .ok ∨ u.result = .crcMismatch)
  /-- The fourth CRC byte of a serialization (R143). -/
  | serialized (cause : ∃ d, Issues x (.serStep d)) (before : s.opState = .ser) (field : s.field = .crc)
      (count : s.count = 3#32) (state : u.opState = .idle) (result : u.result = .ok)

theorem frameMove_effectOf {x : Transaction} {i : Instr} {s : State} (hx : Issues x i)
    (ha : acceptedIn i s.opState = true) : FrameMove x s (setErr .none (effectOf i s)) := by
  cases i with
  | nop | crcInit | crcFeed b => exact .stays rfl rfl
  | parseBegin => exact .parseBegin hx (by simpa using ha) rfl rfl
  | parseFeed b =>
    obtain ⟨hf, hc, hidle, hresult⟩ | ⟨hstate, hresult⟩ := parseByte_ends_or_goes_on b s
    · exact .parsed ⟨b, hx⟩ (OpState.eq_of_accepts_parseFeed ha) hf hc hidle hresult
    · exact .stays hstate hresult
  | parseEnd => exact .parseEnd hx (by simpa using ha) rfl rfl
  | serBegin => exact .serBegin hx (by simpa using ha) rfl rfl
  | serStep d =>
    obtain ⟨hf, hc, hidle, hresult⟩ | ⟨hstate, hresult⟩ := serializeByte_ends_or_goes_on d s
    · exact .serialized ⟨d, hx⟩ (OpState.eq_of_accepts_serStep ha) hf hc hidle hresult
    · exact .stays hstate hresult
  | abort =>
    rw [effectOf]
    obtain ⟨-, hs⟩ | ⟨ho, hs⟩ := abortFrame_cases s <;> rw [hs]
    · exact .stays rfl rfl
    · exact .abort hx ho rfl rfl

theorem transact_frameMove {x : Transaction} {s u : State} (h : transact x s = .next u) : FrameMove x s u := by
  obtain ⟨hx, rfl⟩ | ⟨v, rfl⟩ | ⟨i, hx, ha, rfl⟩ | ⟨e, rfl⟩ | ⟨-, l, t, c, rfl⟩ | rfl := transact_next h
  · exact .reset hx rfl rfl
  · exact .stays rfl rfl -- a Read
  · exact frameMove_effectOf hx ha
  · exact .stays rfl rfl -- a refused or illegal write
  · exact .stays rfl rfl -- a configuration register
  · exact .stays rfl rfl -- an ignored write

/-- Settles O37: of the ways STATE moves, each enters or leaves PARSE and SER as the statement says. -/
theorem howStateIsEnteredAndLeft : Obligations.HowStateIsEnteredAndLeft := by
  unfold Obligations.HowStateIsEnteredAndLeft
  intro x s
  obtain ⟨u, hu⟩ := transact_total x s
  refine ⟨u, hu, ?_⟩
  cases transact_frameMove hu with
  | stays state => simp only [state]; tauto
  | reset hx state => simp [state, hx]
  | parseBegin hx before state => simp [state, before, hx]
  | serBegin hx before state => simp [state, before, hx]
  | parseEnd hx before state => simp [state, before, hx]
  | abort hx before state => simp [state, hx]
  | parsed hx before field count state => simp [state, before, field, count, hx]
  | serialized hx before field count state => simp [state, before, field, count, hx]

/-- Settles O38: of the ways RESULT moves, each has its writer and its value. -/
theorem whoWritesResult : Obligations.WhoWritesResult := by
  unfold Obligations.WhoWritesResult
  intro x s
  obtain ⟨u, hu⟩ := transact_total x s
  refine ⟨u, hu, fun hne => ?_⟩
  cases transact_frameMove hu with
  | stays _ result => exact absurd result hne
  | reset hx _ result => exact .inl ⟨result, .inl hx⟩
  | parseBegin hx before _ result => exact .inl ⟨result, .inr ⟨before, .inl hx⟩⟩
  | serBegin hx before _ result => exact .inl ⟨result, .inr ⟨before, .inr hx⟩⟩
  | parseEnd hx before _ result => exact .inr (.inl ⟨result, before, hx⟩)
  | abort hx before _ result => exact .inr (.inr (.inl ⟨result, before, hx⟩))
  | parsed hx before field count _ result =>
    exact .inr (.inr (.inr (.inl ⟨result, before, field, count, hx⟩)))
  | serialized hx before field count _ result =>
    exact .inr (.inr (.inr (.inr ⟨result, before, field, count, hx⟩)))

end Sys2Proof.Machine
end

section
/-! Proofs of the statements of 10_state.md about what the host sees and what the block is made of: the bits of STATUS
(R34), and the ten fields of the state record as all there is (R20, R40). -/

namespace Sys2Proof.Machine

/-! ### STATUS (R34) -/

/-- A code placed at bit `k` of a word. -/
def codeAt {n : Nat} (k : Nat) (x : BitVec n) : Word := x.setWidth 32 <<< k

/-- A code is read back from where it was placed. -/
theorem extractLsb'_codeAt_self {n k : Nat} (x : BitVec n) (h : k + n ≤ 32) : (codeAt k x).extractLsb' k n = x := by
  apply BitVec.eq_of_getLsbD_eq
  intro i hi
  have hword : k + i < 32 := by omega
  simp [codeAt, hi, hword]

/-- Below and above a code the word is 0. -/
theorem extractLsb'_codeAt_of_disjoint {m : Nat} (x : BitVec m) {k lo n : Nat} (h : lo + n ≤ k ∨ k + m ≤ lo) :
    (codeAt k x).extractLsb' lo n = 0#n := by
  apply BitVec.eq_of_getLsbD_eq
  intro i hi
  obtain h | h := h
  · have hbelow : lo + i < k := by omega
    simp [codeAt, hbelow]
  · simp [codeAt, x.getLsbD_of_ge (lo + i - k) (by omega)]

/-- Bits of STATUS, as the bits of the codes it is made of. -/
theorem extractLsb'_status (s : State) (lo n : Nat) :
    s.status.extractLsb' lo n =
      (codeAt 12 s.err.code).extractLsb' lo n ||| (codeAt 8 s.result.code).extractLsb' lo n |||
      (codeAt 4 (BitVec.ofBool s.isMatch)).extractLsb' lo n ||| (codeAt 2 s.field.code).extractLsb' lo n |||
      (codeAt 0 s.opState.code).extractLsb' lo n := by
  simp only [State.status, codeAt, BitVec.extractLsb'_or, BitVec.shiftLeft_zero]

@[simp] theorem status_opState (s : State) : s.status.extractLsb' 0 2 = s.opState.code := by
  simp [extractLsb'_status, extractLsb'_codeAt_self, extractLsb'_codeAt_of_disjoint]

@[simp] theorem status_field (s : State) : s.status.extractLsb' 2 2 = s.field.code := by
  simp [extractLsb'_status, extractLsb'_codeAt_self, extractLsb'_codeAt_of_disjoint]

@[simp] theorem status_isMatch (s : State) : s.status.extractLsb' 4 1 = BitVec.ofBool s.isMatch := by
  simp [extractLsb'_status, extractLsb'_codeAt_self, extractLsb'_codeAt_of_disjoint]

@[simp] theorem status_result (s : State) : s.status.extractLsb' 8 3 = s.result.code := by
  simp [extractLsb'_status, extractLsb'_codeAt_self, extractLsb'_codeAt_of_disjoint]

@[simp] theorem status_err (s : State) : s.status.extractLsb' 12 2 = s.err.code := by
  simp [extractLsb'_status, extractLsb'_codeAt_self, extractLsb'_codeAt_of_disjoint]

/-- The bits between and above the codes. -/
theorem status_zero (s : State) (lo n : Nat) (h : 5 ≤ lo ∧ lo + n ≤ 8 ∨ 11 ≤ lo ∧ lo + n ≤ 12 ∨ 14 ≤ lo) :
    s.status.extractLsb' lo n = 0#n := by
  rw [extractLsb'_status]
  iterate 5 rw [extractLsb'_codeAt_of_disjoint _ (by omega)]
  simp

theorem status_bit_match (s : State) : s.status.getLsbD 4 = s.isMatch := by
  have hbit : (s.status.extractLsb' 4 1).getLsbD 0 = s.isMatch := by rw [status_isMatch]; simp
  simpa [-status_isMatch] using hbit

theorem isMatch_iff (s : State) : s.isMatch = true ↔ s.crcState ^^^ 0xFFFFFFFF#32 = s.crcExpect := by
  simp [State.isMatch, State.crcValue, Config.crcXorOut]

/-- Settles O16: STATUS is five codes side by side, so each range of bits is one code, or 0 between them. -/
theorem statusBits : Obligations.StatusBits := by
  unfold Obligations.StatusBits
  intro s
  refine ⟨?state, ?field, ?isMatch, status_zero s 5 3 (by decide), ?result, status_zero s 11 1 (by decide), ?err,
    status_zero s 14 18 (by decide), ?write⟩
  case state => rw [status_opState]; cases s.opState <;> rfl
  case field => rw [status_field]; cases s.field <;> rfl
  case isMatch => rw [status_bit_match]; exact isMatch_iff s
  case result => rw [status_result]; cases s.result <;> rfl
  case err => rw [status_err]; cases s.err <;> rfl
  case write => intro v; rw [transact_write, regAt_status]; rfl


/-! ### The host's side beside the block (R20, R40) -/

/-- The block of `s` beside another host: other transactions pending, other words read. -/
def withHost (p : List Transaction) (r : List Word) (s : State) : State := { s with pending := p, reads := r }

/-- States with the same ten fields differ in the host's side alone. -/
theorem sameBlock_iff (s s' : State) : SameBlock s s' ↔ s' = withHost s'.pending s'.reads s := by
  obtain ⟨⟩ := s
  obtain ⟨⟩ := s'
  simp [SameBlock, withHost, eq_comm]

theorem sameBlock_withHost (p : List Transaction) (r : List Word) (s : State) : SameBlock s (withHost p r s) :=
  (sameBlock_iff _ _).2 rfl

theorem parseByte_withHost (b : Byte) (p : List Transaction) (r : List Word) (s : State) :
    parseByte b (withHost p r s) = withHost p r (parseByte b s) := by
  obtain ⟨o, f, n, _⟩ := s
  cases f with
  | len | type | data => rfl
  | crc => by_cases hlast : n = 3#32 <;> simp only [parseByte, withHost, hlast, if_true, if_false] <;> rfl

theorem serializeByte_withHost (d : Byte) (p : List Transaction) (r : List Word) (s : State) :
    serializeByte d (withHost p r s) = withHost p r (serializeByte d s) := by
  obtain ⟨o, f, n, _⟩ := s
  cases f with
  | len | type | data => rfl
  | crc => by_cases hlast : n = 3#32 <;> simp only [serializeByte, withHost, hlast, if_true, if_false] <;> rfl

theorem abortFrame_withHost (p : List Transaction) (r : List Word) (s : State) :
    abortFrame (withHost p r s) = withHost p r (abortFrame s) := by
  obtain ⟨o, _⟩ := s
  cases o <;> rfl

theorem effectOf_withHost (i : Instr) (p : List Transaction) (r : List Word) (s : State) :
    effectOf i (withHost p r s) = withHost p r (effectOf i s) := by
  cases i with
  | parseFeed b => exact parseByte_withHost b p r s
  | serStep d => exact serializeByte_withHost d p r s
  | abort => exact abortFrame_withHost p r s
  | nop | crcInit | crcFeed b | parseBegin | parseEnd | serBegin => rfl

theorem readReg_withHost (g : Reg) (p : List Transaction) (r : List Word) (s : State) :
    readReg g (withHost p r s) = readReg g s := by
  cases g <;> rfl

section
variable {p : List Transaction} {r : List Word} {s u : State}

theorem acceptIn_withHost {states : List OpState} {effect : State → State}
    (heffect : effect (withHost p r s) = withHost p r (effect s)) (h : acceptIn states effect s = .next u) :
    acceptIn states effect (withHost p r s) = .next (withHost p r u) := by
  obtain ⟨hin, rfl⟩ | ⟨hout, rfl⟩ := acceptIn_next h
  · rw [acceptIn_of_mem (s := withHost p r s) hin, heffect]; rfl
  · rw [acceptIn_of_not_mem (s := withHost p r s) hout]; rfl

theorem exec_withHost {i : Instr} (h : exec i s = .next u) :
    exec i (withHost p r s) = .next (withHost p r u) := by
  obtain ⟨ha, rfl⟩ | ⟨ha, rfl⟩ := exec_next h
  · rw [exec_accepted (s := withHost p r s) ha, effectOf_withHost]; rfl
  · rw [exec_refused (s := withHost p r s) ha]; rfl

theorem writeReg_withHost {g : Reg} {v : Word} (h : writeReg g v s = .next u) :
    writeReg g v (withHost p r s) = .next (withHost p r u) := by
  cases g with
  | cmd =>
    rw [writeReg, writeCmd] at h ⊢
    cases hd : decode v with
    | ok i => rw [hd] at h; exact exec_withHost h
    | error e => rw [hd] at h; cases h; rfl
  | length => rw [writeReg, writeLength] at h ⊢; exact acceptIn_withHost rfl h
  | chunkType => rw [writeReg, writeType] at h ⊢; exact acceptIn_withHost rfl h
  | crcExpect => rw [writeReg, writeCrcExpect] at h ⊢; exact acceptIn_withHost rfl h
  | status | typeFlags | crcValue | crcRaw | count | outByte | id | reserved => cases h; rfl

/-- A write commutes with every change of the host's side, so it leaves that side as it is. -/
theorem writeReg_keeps_host {g : Reg} {v : Word} (h : writeReg g v s = .next u) :
    u.pending = s.pending ∧ u.reads = s.reads := by
  have hw : writeReg g v s = .next (withHost s.pending s.reads u) := writeReg_withHost h
  have hu : u = withHost s.pending s.reads u := by simpa [h] using hw
  exact ⟨(congrArg State.pending hu).trans rfl, (congrArg State.reads hu).trans rfl⟩

/-- A transaction does the same to the block beside any host, and adds the same words to the words read. -/
theorem transact_withHost {x : Transaction} (h : transact x s = .next u) :
    ∃ vs, u.reads = s.reads ++ vs ∧ u.pending = s.pending ∧
      transact x (withHost p r s) = .next (withHost p (r ++ vs) u) := by
  cases x with
  | reset =>
    cases h
    exact ⟨[], by simp, rfl, by rw [List.append_nil]; rfl⟩
  | write off v =>
    rw [transact_write] at h ⊢
    obtain ⟨hpending, hreads⟩ := writeReg_keeps_host h
    exact ⟨[], by simp [hreads], hpending, by rw [List.append_nil]; exact writeReg_withHost h⟩
  | read off =>
    rw [transact_read] at h ⊢
    cases h
    exact ⟨[readReg (regAt off) s], rfl, rfl, by rw [readReg_withHost]; rfl⟩

end

/-- Settles O11: states with the same ten fields are one block beside two hosts, and a transaction does not look at the
host. -/
theorem nothingElsePersists : Obligations.NothingElsePersists := by
  unfold Obligations.NothingElsePersists
  intro x s s' hsame
  obtain ⟨u, hu⟩ := transact_total x s
  obtain ⟨vs, hreads, hpending, hu'⟩ := transact_withHost (p := s'.pending) (r := s'.reads) hu
  rw [← (sameBlock_iff s s').1 hsame] at hu'
  exact ⟨u, _, vs, hu, hu', sameBlock_withHost _ _ u, hreads, rfl, hpending, rfl⟩

end Sys2Proof.Machine
end

section
/-! Proofs of the statements of 10_state.md about the invariant of R42: the walk of FIELD and COUNT keeps the bounds of
COUNT, a PARSE_FEED keeps the bounds of the register it assembles, and every transaction keeps both. -/

namespace Sys2Proof.Machine

/-! ### COUNT during a frame (R42 (b)) -/

/-- R42 (b) of a place in a frame: COUNT is below LENGTH in DATA and below 4 elsewhere. -/
def PositionBounded (f : Field) (count len : Word) : Prop :=
  match f with
  | .len | .type | .crc => count < 4#32
  | .data => count < len

theorem countBounded_iff (s : State) :
    CountBounded s ↔ (s.opState ≠ .idle → PositionBounded s.field s.count s.length) := by
  cases hf : s.field <;> simp [CountBounded, PositionBounded, hf]

theorem nextPosition_bounded {f : Field} {count len : Word} (h : PositionBounded f count len) :
    PositionBounded (nextPosition f count len).1 (nextPosition f count len).2 len := by
  cases f with
  | len | crc =>
    by_cases hlast : count = 3#32 <;>
      simp only [PositionBounded, nextPosition, hlast, if_true, if_false] at h ⊢ <;> bv_omega
  | type =>
    by_cases hlast : count = 3#32
    · by_cases hl : len = 0#32 <;> simp only [PositionBounded, nextPosition, hlast, hl, if_true, if_false] <;> bv_omega
    · simp only [PositionBounded, nextPosition, hlast, if_false] at h ⊢; bv_omega
  | data =>
    by_cases hlast : count = len - 1#32 <;>
      simp only [PositionBounded, nextPosition, hlast, if_true, if_false] at h ⊢ <;> bv_omega

theorem countBounded_advance {s : State} (h : CountBounded s) : CountBounded (advance s) := by
  rw [countBounded_iff] at h ⊢
  exact fun ho => nextPosition_bounded (h ho)

theorem countBounded_parseByte (b : Byte) {s : State} (h : CountBounded s) : CountBounded (parseByte b s) := by
  unfold parseByte
  split
  next hf => -- LEN: the bound of COUNT there does not speak of LENGTH
    apply countBounded_advance
    rw [countBounded_iff] at h ⊢
    simpa [PositionBounded, hf] using h
  next => exact countBounded_advance h
  next => exact countBounded_advance h
  next => -- CRC
    dsimp only
    split
    · exact fun ho => absurd rfl ho
    · exact countBounded_advance h

theorem countBounded_serializeByte (d : Byte) {s : State} (h : CountBounded s) :
    CountBounded (serializeByte d s) := by
  unfold serializeByte
  split
  next => exact countBounded_advance h
  next => exact countBounded_advance h
  next => exact countBounded_advance h
  next => -- CRC
    dsimp only
    split
    · exact fun ho => absurd rfl ho
    · exact countBounded_advance h

/-! ### The registers a parse assembles (R42 (d), R121, R122) -/

/-- R42 (d) with the registers a parse has not come to yet: what a PARSE_FEED must keep of the four registers. -/
def RegistersAssembled (s : State) : Prop := PartlyAssembled s ∧ NotYetAssembled s

section
variable {s : State} (ho : s.opState = .parse)
include ho

theorem registersAssembled_len (hf : s.field = .len) :
    RegistersAssembled s ↔ s.length.toNat < 2 ^ (8 * s.count.toNat) ∧ s.chunkType = 0#32 ∧
      s.crcState = 0xFFFFFFFF#32 ∧ s.crcExpect = 0#32 := by
  simp [RegistersAssembled, PartlyAssembled, NotYetAssembled, ho, hf, and_assoc]

theorem registersAssembled_type (hf : s.field = .type) :
    RegistersAssembled s ↔ s.chunkType.toNat < 2 ^ (8 * s.count.toNat) ∧ s.crcExpect = 0#32 := by
  simp [RegistersAssembled, PartlyAssembled, NotYetAssembled, ho, hf]

theorem registersAssembled_data (hf : s.field = .data) : RegistersAssembled s ↔ s.crcExpect = 0#32 := by
  simp [RegistersAssembled, PartlyAssembled, NotYetAssembled, ho, hf]

theorem registersAssembled_crc (hf : s.field = .crc) :
    RegistersAssembled s ↔ s.crcExpect.toNat < 2 ^ (8 * s.count.toNat) := by
  simp [RegistersAssembled, PartlyAssembled, NotYetAssembled, ho, hf]

end

/-- A byte shifted in takes a register of `n` bytes to one of `n + 1`. -/
theorem shiftIn_lt {v : Word} {n : Nat} (b : Byte) (h : v.toNat < 2 ^ (8 * n)) :
    (shiftIn v b).toNat < 2 ^ (8 * (n + 1)) := by
  have hp : 2 ^ (8 * (n + 1)) = 2 ^ (8 * n) * 2 ^ 8 := by rw [← Nat.pow_add]; rfl
  have hv : (v <<< 8).toNat < 2 ^ (8 * (n + 1)) := by
    rw [BitVec.toNat_shiftLeft, Nat.shiftLeft_eq, hp]
    exact (Nat.mod_le _ _).trans_lt (Nat.mul_lt_mul_of_pos_right h (by decide))
  have hb : (b.setWidth 32).toNat < 2 ^ (8 * (n + 1)) := by
    rw [BitVec.toNat_setWidth_of_le (by decide)]
    exact b.isLt.trans_le (Nat.pow_le_pow_right (by decide) (by omega))
  rw [shiftIn, BitVec.toNat_or]
  exact Nat.or_lt_two_pow hv hb

/-- COUNT grows by one where the field goes on. -/
theorem toNat_count_succ {c : Word} (h : c < 4#32) : (c + 1#32).toNat = c.toNat + 1 := by bv_omega

/-- The byte that does not end its field is shifted into a register the bound still holds of. -/
theorem shiftIn_lt_count {v c : Word} (b : Byte) (hc : c < 4#32) (h : v.toNat < 2 ^ (8 * c.toNat)) :
    (shiftIn v b).toNat < 2 ^ (8 * (c + 1#32).toNat) := by
  rw [toNat_count_succ hc]
  exact shiftIn_lt b h

theorem registersAssembled_parseByte (b : Byte) {s : State} (ho : s.opState = .parse) (hc : CountBounded s)
    (h : RegistersAssembled s) : RegistersAssembled (parseByte b s) := by
  obtain ⟨hlen, htype, hcrc, -⟩ := hc (by simp [ho])
  cases hf : s.field with
  | len =>
    obtain ⟨hl, ht, hs, he⟩ := (registersAssembled_len ho hf).1 h
    rw [parseByte_len hf]
    by_cases hlast : s.count = 3#32
    · simp only [hlast, if_true]
      exact Iff.mpr (registersAssembled_type ho rfl) ⟨by simp [ht], he⟩
    · simp only [hlast, if_false]
      exact Iff.mpr (registersAssembled_len ho rfl) ⟨shiftIn_lt_count b (hlen hf) hl, ht, hs, he⟩
  | type =>
    obtain ⟨ht, he⟩ := (registersAssembled_type ho hf).1 h
    rw [parseByte_type hf]
    by_cases hlast : s.count = 3#32
    · simp only [hlast, if_true]
      by_cases hl : s.length = 0#32
      · simp only [hl, if_true]
        exact Iff.mpr (registersAssembled_crc ho rfl) (by simp [he])
      · simp only [hl, if_false]
        exact Iff.mpr (registersAssembled_data ho rfl) he
    · simp only [hlast, if_false]
      exact Iff.mpr (registersAssembled_type ho rfl) ⟨shiftIn_lt_count b (htype hf) ht, he⟩
  | data =>
    have he := (registersAssembled_data ho hf).1 h
    rw [parseByte_data hf]
    by_cases hlast : s.count = s.length - 1#32
    · simp only [hlast, if_true]
      exact Iff.mpr (registersAssembled_crc ho rfl) (by simp [he])
    · simp only [hlast, if_false]
      exact Iff.mpr (registersAssembled_data ho rfl) he
  | crc =>
    have he := (registersAssembled_crc ho hf).1 h
    by_cases hlast : s.count = 3#32
    · rw [parseByte_crc_last hf hlast]
      simp [RegistersAssembled, PartlyAssembled, NotYetAssembled]
    · rw [parseByte_crc hf hlast]
      exact Iff.mpr (registersAssembled_crc ho hf) (shiftIn_lt_count b (hcrc hf) he)

/-! ### The invariant across a transaction -/

theorem frameInvariant_iff (s : State) :
    FrameInvariant s ↔ CountBounded s ∧ NoVerdictYet s ∧ RegistersAssembled s := by
  simp only [FrameInvariant, ReachableInvariant, RegistersAssembled, and_assoc]

/-- In IDLE the invariant asks for nothing. -/
theorem frameInvariant_of_idle {s : State} (h : s.opState = .idle) : FrameInvariant s := by
  simp [FrameInvariant, ReachableInvariant, CountBounded, NoVerdictYet, PartlyAssembled, NotYetAssembled, h]

/-- A frame operation just begun meets it. -/
theorem frameInvariant_beginFrame (m : OpState) {s : State}
    (h : m = .parse → s.length = 0#32 ∧ s.chunkType = 0#32 ∧ s.crcExpect = 0#32) :
    FrameInvariant (beginFrame m s) := by
  rw [frameInvariant_iff]
  refine ⟨fun _ => by simp, fun _ => rfl, fun hm => ?_, fun hm => ?_⟩ <;>
    · obtain ⟨hl, ht, he⟩ := h hm
      simp [hl, ht, he, Config.crcInit]

theorem frameInvariant_parseByte (b : Byte) {s : State} (ho : s.opState = .parse) (h : FrameInvariant s) :
    FrameInvariant (parseByte b s) := by
  obtain ⟨-, -, hidle, -⟩ | ⟨hstate, hresult⟩ := parseByte_ends_or_goes_on b s
  · exact frameInvariant_of_idle hidle
  · obtain ⟨hcount, hverdict, hregs⟩ := (frameInvariant_iff s).1 h
    refine (frameInvariant_iff _).2
      ⟨countBounded_parseByte b hcount, ?_, registersAssembled_parseByte b ho hcount hregs⟩
    rwa [NoVerdictYet, hstate, hresult]

theorem frameInvariant_serializeByte (d : Byte) {s : State} (ho : s.opState = .ser) (h : FrameInvariant s) :
    FrameInvariant (serializeByte d s) := by
  obtain ⟨-, -, hidle, -⟩ | ⟨hstate, hresult⟩ := serializeByte_ends_or_goes_on d s
  · exact frameInvariant_of_idle hidle
  · obtain ⟨hcount, hverdict, -⟩ := (frameInvariant_iff s).1 h
    refine (frameInvariant_iff _).2 ⟨countBounded_serializeByte d hcount, ?_, ?_⟩
    · rwa [NoVerdictYet, hstate, hresult]
    · simp [RegistersAssembled, PartlyAssembled, NotYetAssembled, hstate, ho]

/-- An accepted command keeps the invariant: it leaves the block in IDLE, begins a frame or moves it by one byte. -/
theorem frameInvariant_effectOf (i : Instr) {s : State} (ha : acceptedIn i s.opState = true)
    (h : FrameInvariant s) : FrameInvariant (effectOf i s) := by
  cases i with
  | nop => exact h
  | crcInit => exact frameInvariant_of_idle ((acceptedIn_crcInit _).1 ha)
  | crcFeed b => exact frameInvariant_of_idle ((acceptedIn_crcFeed b _).1 ha)
  | parseBegin => exact frameInvariant_beginFrame _ fun _ => ⟨rfl, rfl, rfl⟩
  | parseFeed b => exact frameInvariant_parseByte b (OpState.eq_of_accepts_parseFeed ha) h
  | parseEnd => exact frameInvariant_of_idle rfl
  | serBegin => exact frameInvariant_beginFrame _ (by simp)
  | serStep d => exact frameInvariant_serializeByte d (OpState.eq_of_accepts_serStep ha) h
  | abort =>
    rw [effectOf]
    obtain ⟨-, hs⟩ | ⟨-, hs⟩ := abortFrame_cases s <;> rw [hs]
    · exact h
    · exact frameInvariant_of_idle rfl

theorem frameInvariant_transact {x : Transaction} {s u : State} (hs : FrameInvariant s)
    (h : transact x s = .next u) : FrameInvariant u := by
  obtain ⟨-, rfl⟩ | ⟨v, rfl⟩ | ⟨i, -, ha, rfl⟩ | ⟨e, rfl⟩ | ⟨hidle, l, t, c, rfl⟩ | rfl := transact_next h
  · exact frameInvariant_of_idle rfl -- Reset
  · exact hs -- a Read
  · exact frameInvariant_effectOf i ha hs
  · exact hs -- a refused or illegal write
  · exact frameInvariant_of_idle hidle -- a configuration register
  · exact hs -- an ignored write

/-- Settles O43: the step is one transaction, and every transaction keeps the invariant. -/
theorem stepKeepsFrameInvariant : Obligations.StepKeepsFrameInvariant := by
  unfold Obligations.StepKeepsFrameInvariant
  intro s t hs h
  cases hp : s.pending with
  | nil =>
    rw [step_of_pending_nil hp] at h
    cases h
    exact hs
  | cons x ts =>
    rw [step_of_pending_cons hp] at h
    exact frameInvariant_transact (s := { s with pending := ts }) hs h

/-- Settles O42: Reset leaves the block in IDLE, where the invariant asks for nothing. -/
theorem frameInvariantAtReset : Obligations.FrameInvariantAtReset := by
  unfold Obligations.FrameInvariantAtReset
  exact frameInvariant_of_idle rfl

/-! ### Reachable states (R42) -/

/-- What every transaction keeps holds after every sequence of them. -/
theorem transactAll_keeps {P : State → Prop} (hkeeps : ∀ {x s u}, P s → transact x s = .next u → P u)
    (ts : List Transaction) {s : State} (hs : P s) : ∃ u, transactAll ts s = .next u ∧ P u := by
  induction ts generalizing s with
  | nil => exact ⟨s, rfl, hs⟩
  | cons x ts ih =>
    obtain ⟨u, hu⟩ := transact_total x s
    rw [transactAll_cons_of_next hu]
    exact ih (hkeeps hs hu)

/-- R42 (a): STATUS shows none of the codes that never occur. -/
theorem status_codes_occur (s : State) :
    s.status.extractLsb' 0 2 ≠ 3#2 ∧ s.status.extractLsb' 8 3 < 5#3 ∧ s.status.extractLsb' 12 2 ≠ 3#2 := by
  rw [status_opState, status_result, status_err]
  refine ⟨?_, ?_, ?_⟩
  · cases s.opState <;> decide
  · cases s.result <;> decide
  · cases s.err <;> decide

/-- Settles O44: Reset meets the invariant and every transaction keeps it; `1 ≤ LENGTH` in DATA follows from
`COUNT < LENGTH`. -/
theorem reachableStatesMeetTheInvariants : Obligations.ReachableStatesMeetTheInvariants := by
  unfold Obligations.ReachableStatesMeetTheInvariants
  intro ts
  obtain ⟨s, hs, ⟨hcount, hverdict, hregs⟩, -⟩ :=
    transactAll_keeps frameInvariant_transact ts frameInvariantAtReset
  obtain ⟨hstate, hresult, herr⟩ := status_codes_occur s
  refine ⟨s, hs, hstate, hresult, herr, fun hframe => ?_, hregs⟩
  have hbusy : s.opState ≠ .idle := by obtain ho | ho := hframe <;> simp [ho]
  obtain ⟨hlen, htype, hcrc, hdata⟩ := hcount hbusy
  refine ⟨?_, fun hf => ⟨hdata hf, ?_⟩, hverdict hbusy⟩
  · rintro (hf | hf | hf)
    · exact hlen hf
    · exact htype hf
    · exact hcrc hf
  · have := hdata hf
    bv_omega

end Sys2Proof.Machine
end

section
/-! Proofs of the statements of 20_memory.md: the slot of an offset (R51), Reads without side effects (R58), and the
pending transactions performed one at a time, in the host's order (R57, R61). -/

namespace Sys2Proof.Machine

/-! ### The slot of an offset (R51) -/

theorem regAt_eq_of_slotOf_eq {off off' : Offset} (h : slotOf off = slotOf off') : regAt off = regAt off' := by
  rw [regAt, h, regAt]

/-- Settles O15: a transaction looks at its offset through `regAt`, and `regAt` looks at the slot alone. -/
theorem offsetLowBitsDoNotReachThePort : Obligations.OffsetLowBitsDoNotReachThePort := by
  unfold Obligations.OffsetLowBitsDoNotReachThePort
  intro off off' v s hslot
  have hreg : regAt off = regAt off' := regAt_eq_of_slotOf_eq hslot
  exact ⟨by rw [transact_read, hreg, transact_read], by rw [transact_write, hreg, transact_write]⟩

/-! ### Sequences of transactions beside a host -/

theorem transactAll_total (ts : List Transaction) (s : State) : ∃ t, transactAll ts s = .next t := by
  obtain ⟨t, ht, -⟩ := transactAll_keeps (P := fun _ => True) (fun _ _ => trivial) ts (s := s) trivial
  exact ⟨t, ht⟩

/-- A sequence that answers `t` performed its first transaction, and the rest on what that one left. -/
theorem transactAll_cons_next {x : Transaction} {ts : List Transaction} {s t : State}
    (h : transactAll (x :: ts) s = .next t) : ∃ u, transact x s = .next u ∧ transactAll ts u = .next t := by
  obtain ⟨u, hu⟩ := transact_total x s
  exact ⟨u, hu, (transactAll_cons_of_next hu ts).symm.trans h⟩

/-- A sequence of transactions does the same to the block beside any host, and adds the same words to the words read. -/
theorem transactAll_withHost {p : List Transaction} {r : List Word} {ts : List Transaction} {s t : State}
    (h : transactAll ts s = .next t) :
    ∃ vs, t.reads = s.reads ++ vs ∧ t.pending = s.pending ∧
      transactAll ts (withHost p r s) = .next (withHost p (r ++ vs) t) := by
  induction ts generalizing s r with
  | nil =>
    cases h
    exact ⟨[], by simp, rfl, by rw [List.append_nil]; rfl⟩
  | cons x ts ih =>
    obtain ⟨u, hx, hts⟩ := transactAll_cons_next h
    obtain ⟨vs, hreads, hpending, hx'⟩ := transact_withHost (p := p) (r := r) hx
    obtain ⟨ws, hreads', hpending', hts'⟩ := ih (r := r ++ vs) hts
    refine ⟨vs ++ ws, by rw [hreads', hreads, List.append_assoc], hpending'.trans hpending, ?_⟩
    rw [transactAll_cons_of_next hx', hts', List.append_assoc]

/-! ### Reads (R58) -/

theorem recordRead_eq_withHost (v : Word) (s : State) :
    recordRead v s = withHost s.pending (s.reads ++ [v]) s := rfl

@[simp] theorem readReg_recordRead (g : Reg) (v : Word) (s : State) : readReg g (recordRead v s) = readReg g s := by
  rw [recordRead_eq_withHost, readReg_withHost]

/-- A sequence that starts after one Read more ends in the same state but for the words read. -/
theorem transactAll_of_recordRead {ts : List Transaction} {v : Word} {s t : State}
    (h : transactAll ts (recordRead v s) = .next t) : ∃ r, transactAll ts s = .next { t with reads := r } := by
  obtain ⟨vs, -, hpending, hs⟩ := transactAll_withHost (p := s.pending) (r := s.reads) h
  exact ⟨s.reads ++ vs, hs.trans (by rw [withHost, ← recordRead_pending v s, ← hpending])⟩

/-- The Reads of a sequence may be omitted: the final state is the same but for the words read. -/
theorem transactAll_filter_not_isRead {ts : List Transaction} {s t : State} (h : transactAll ts s = .next t) :
    ∃ r, transactAll (ts.filter fun x => !isRead x) s = .next { t with reads := r } := by
  induction ts generalizing s with
  | nil =>
    cases h
    exact ⟨_, rfl⟩
  | cons x ts ih =>
    obtain ⟨u, hx, hts⟩ := transactAll_cons_next h
    obtain ⟨r, hr⟩ := ih hts
    cases x with
    | read off => -- omitted: what is left starts in `s`, and not in the state after the Read
      cases hx
      obtain ⟨r', hr'⟩ := transactAll_of_recordRead hr
      exact ⟨r', hr'⟩
    | reset | write off v => -- performed
      exact ⟨r, (transactAll_cons_of_next hx _).trans hr⟩

/-- A sequence of Reads alone: each returns what it would return at once. -/
theorem transactAll_reads (offs : List Offset) (s : State) :
    transactAll (offs.map Transaction.read) s =
      .next { s with reads := s.reads ++ offs.map fun off => readReg (regAt off) s } := by
  induction offs generalizing s with
  | nil => simp
  | cons off offs ih =>
    rw [List.map_cons, transactAll_cons_of_next (transact_read off s), ih]
    simp

/-- Settles O14: a Read changes the words read alone, and neither a transaction nor a Read looks at them. -/
theorem readsHaveNoSideEffects : Obligations.ReadsHaveNoSideEffects := by
  unfold Obligations.ReadsHaveNoSideEffects
  refine ⟨fun ts s => ?_, transactAll_reads⟩
  obtain ⟨t, ht⟩ := transactAll_total ts s
  obtain ⟨r, hr⟩ := transactAll_filter_not_isRead ht
  exact ⟨t, _, ht, hr, rfl⟩

/-! ### Steps (R57, R61) -/

/-- A step performs the first pending transaction, whatever stands after it: a transaction does not look at what is
pending and leaves it as it is. -/
theorem step_of_transact {x : Transaction} {ts us : List Transaction} {s u : State}
    (h : transact x { s with pending := us } = .next u) :
    u.pending = us ∧ step { s with pending := x :: ts } = .next { u with pending := ts } := by
  obtain ⟨vs, hreads, hpending, hts⟩ := transact_withHost (p := ts) (r := s.reads) h
  refine ⟨hpending, (step_of_pending_cons rfl).trans (hts.trans ?_)⟩
  rw [withHost, ← hreads]

theorem run_succ_of_step {M : Host.Core} {k : Nat} {s u : M.State} (h : M.step s = .next u) :
    M.run (k + 1) s = M.run k u := by
  rw [Host.Core.run, h]

/-- Settles O10, by induction on the transactions: the first step performs the first of them and leaves the others
pending. -/
theorem stepsPerformTransactionsInOrder : Obligations.StepsPerformTransactionsInOrder := by
  unfold Obligations.StepsPerformTransactionsInOrder
  intro ts us s t h
  induction ts generalizing s with
  | nil => exact h
  | cons x ts ih =>
    obtain ⟨u, hx, hts⟩ := transactAll_cons_next h
    obtain ⟨rfl, hstep⟩ := step_of_transact (ts := ts ++ us) hx
    exact (run_succ_of_step hstep).trans (ih u hts)

end Sys2Proof.Machine
end

section
/-! Proofs of the statements of 30_encoding.md about command words: decoder and encoder (R70 to R74), the rows of the
opcode table (R75), and which words are legal (R73, R74, R76, R77). -/

namespace Sys2Proof.Machine

/-! ### The command of a word (R70 to R75) -/

theorem decode_eq_ok_iff (w : Word) (i : Instr) : decode w = .ok i ↔ w = encode i :=
  ⟨eq_encode_of_decode_ok, fun h => h ▸ decode_encode i⟩

/-- Settles O1: a command is read back from its own word, and a word that decodes is its command's own word. -/
theorem decodeAndEncodeAgree : Obligations.DecodeAndEncodeAgree := by
  unfold Obligations.DecodeAndEncodeAgree
  exact decode_eq_ok_iff

/-- Settles O5: each word is the one encoded for its command. -/
theorem sampleWordsDecode : Obligations.SampleWordsDecode := by
  unfold Obligations.SampleWordsDecode
  simp only [decode_eq_ok_iff]
  decide

@[simp] theorem imm8Field_encode (i : Instr) : imm8Field (encode i) = i.imm8 := imm8Field_packWord _ _

/-- The operand of a command stands in bits 15 to 8 of every word that decodes to it. -/
theorem imm8_of_decode_ok {w : Word} {i : Instr} (h : decode w = .ok i) : i.imm8 = w.extractLsb' 8 8 := by
  rw [eq_encode_of_decode_ok h]
  exact (imm8Field_encode i).symm

/-! ### The rows of the opcode table (R75) -/

/-- A row without an operand masks nothing away. -/
theorem and_fullMask (w : Word) : w &&& 0xFFFFFFFF#32 = w := BitVec.and_allOnes

/-- The mask of a row with an operand covers OP, RSV0 and RSV1 and leaves out IMM8. -/
@[simp] theorem opField_and_operandMask (w : Word) : opField (w &&& 0xFFFF00FF#32) = opField w :=
  BitVec.extractLsb'_and.trans BitVec.and_allOnes

@[simp] theorem rsv0Field_and_operandMask (w : Word) : rsv0Field (w &&& 0xFFFF00FF#32) = rsv0Field w :=
  BitVec.extractLsb'_and.trans BitVec.and_allOnes

@[simp] theorem imm8Field_and_operandMask (w : Word) : imm8Field (w &&& 0xFFFF00FF#32) = 0#8 :=
  BitVec.extractLsb'_and.trans BitVec.and_zero

@[simp] theorem rsv1Field_and_operandMask (w : Word) : rsv1Field (w &&& 0xFFFF00FF#32) = rsv1Field w :=
  BitVec.extractLsb'_and.trans BitVec.and_allOnes

theorem eq_packWord_iff (w : Word) (op : BitVec 4) (imm : Byte) :
    w = packWord op imm ↔ rsv1Field w = 0#16 ∧ rsv0Field w = 0#4 ∧ opField w = op ∧ imm8Field w = imm := by
  constructor
  · rintro rfl
    simp
  · rintro ⟨h1, h0, rfl, rfl⟩
    exact eq_packWord_of_rsv w h1 h0

/-- A row with an operand leaves IMM8 free and no other field. -/
theorem and_operandMask_eq_packWord_iff (w : Word) (op : BitVec 4) :
    w &&& 0xFFFF00FF#32 = packWord op 0#8 ↔ w = packWord op (imm8Field w) := by
  simp [eq_packWord_iff]

/-- Settles O2: under the mask of its row a word is its row's match exactly when it is the command's own word. -/
theorem rowsSelectTheirCommands : Obligations.RowsSelectTheirCommands := by
  unfold Obligations.RowsSelectTheirCommands
  intro w
  simp only [decode_eq_ok_iff, and_fullMask]
  exact ⟨.rfl, .rfl, and_operandMask_eq_packWord_iff w 2#4, .rfl, and_operandMask_eq_packWord_iff w 4#4, .rfl, .rfl,
    and_operandMask_eq_packWord_iff w 7#4, .rfl⟩

theorem decodes_iff_row_matches (w : Word) :
    (∃ i, decode w = .ok i) ↔ ∃ r ∈ opcodeRows, w &&& r.mask = r.pattern := by
  obtain ⟨hnop, hcrcInit, hcrcFeed, hparseBegin, hparseFeed, hparseEnd, hserBegin, hserStep, habort⟩ :=
    rowsSelectTheirCommands w
  simp only [opcodeRows, List.mem_cons, List.not_mem_nil, or_false, exists_eq_or_imp, exists_eq_left, hnop, hcrcInit,
    hcrcFeed, hparseBegin, hparseFeed, hparseEnd, hserBegin, hserStep, habort]
  constructor
  · rintro ⟨i, hi⟩
    have himm := imm8_of_decode_ok hi
    cases i <;> simp [hi, ← himm, Instr.imm8]
  · rintro (h | h | h | h | h | h | h | h | h) <;> exact ⟨_, h⟩

/-! ### Legal words (R73, R74, R76, R77) -/

theorem withoutOperand_isOk_iff (i : Instr) (imm : Byte) : (∃ j, withoutOperand i imm = .ok j) ↔ imm = 0#8 := by
  by_cases h : imm = 0#8 <;> simp [withoutOperand, h]

/-- Down the opcode map of R75: the assigned OPs, and IMM8 free in the three with an operand. -/
theorem decodeOp_isOk_iff (op : BitVec 4) (imm : Byte) :
    (∃ i, decodeOp op imm = .ok i) ↔ op ≤ 8#4 ∧ ((op = 2#4 ∨ op = 4#4 ∨ op = 7#4) ∨ imm = 0#8) := by
  unfold decodeOp
  split_ifs
  case neg => -- a reserved OP
    have hreserved : ¬ op ≤ 8#4 := by bv_omega
    simp [hreserved]
  all_goals -- the nine rows
    subst_vars
    simp [withoutOperand_isOk_iff]

theorem decodes_iff_fields (w : Word) :
    (∃ i, decode w = .ok i) ↔ rsv1Field w = 0#16 ∧ rsv0Field w = 0#4 ∧ opField w ≤ 8#4 ∧
      ((opField w = 2#4 ∨ opField w = 4#4 ∨ opField w = 7#4) ∨ imm8Field w = 0#8) := by
  rw [← decodeOp_isOk_iff]
  constructor
  · rintro ⟨i, h⟩
    obtain ⟨h1, h0, hop⟩ := decode_ok_fields h
    exact ⟨h1, h0, i, hop⟩
  · rintro ⟨h1, h0, i, hop⟩
    exact ⟨i, by simp [decode, h1, h0, hop]⟩

theorem transact_write_cmd_of_not_decodes {w : Word} (h : ¬ ∃ i, decode w = .ok i) (s : State) :
    transact (.write 0x00#8 w) s = .next { s with err := .illegal } := by
  cases hd : decode w with
  | ok i => exact absurd ⟨i, hd⟩ h
  | error e => exact transact_write_cmd_of_decode_error regAt_cmd hd s

theorem transact_write_cmd_not_illegal {w : Word} {i : Instr} (h : decode w = .ok i) (s : State) :
    ∃ t, transact (.write 0x00#8 w) s = .next t ∧ t.err ≠ .illegal := by
  rw [transact_write_cmd_of_decode_ok regAt_cmd h]
  refine ⟨_, exec_eq i s, ?_⟩
  rw [exec_err (exec_eq i s)]
  split <;> simp

/-- Settles O3: the two forms of legality are read off the decoder and off the table; the two answers are the rules of a
Write to CMD. -/
theorem legalWordsAndIllegalWords : Obligations.LegalWordsAndIllegalWords := by
  unfold Obligations.LegalWordsAndIllegalWords
  exact fun w => ⟨decodes_iff_fields w, decodes_iff_row_matches w,
    fun s h => transact_write_cmd_of_not_decodes h s, fun s ⟨_, h⟩ => transact_write_cmd_not_illegal h s⟩

/-- Settles O4: each of the clauses contradicts one of the fields of a word that decodes. -/
theorem reservedBitsOperandsAndOpsAreIllegal : Obligations.ReservedBitsOperandsAndOpsAreIllegal := by
  unfold Obligations.ReservedBitsOperandsAndOpsAreIllegal
  intro w s hw
  refine transact_write_cmd_of_not_decodes (fun hdec => ?_) s
  obtain ⟨hrsv1, hrsv0, hop, hoperand⟩ := (decodes_iff_fields w).1 hdec
  obtain h | h | ⟨himm, h⟩ | h := hw
  · exact h hrsv0
  · exact h hrsv1
  · obtain hfree | hzero := hoperand
    · rw [opField] at hfree
      obtain h | h | h | h | h | h := h <;> simp [h] at hfree
    · exact himm hzero
  · exact absurd (BitVec.le_trans h hop) (by decide)

end Sys2Proof.Machine
end

section
/-! Proof of the statement of 30_encoding.md about the text of a host program: the line of a command and the Write it
stands for (R80). -/

namespace Sys2Proof.Machine

/-! ### From text to tokens -/

theorem lexGap_of_isWordChar {c : Char} (h : isWordChar c = true) (out : List Token) :
    lexGap out c = ⟨.word [c], out⟩ := by
  have hne : ∀ d, isWordChar d = false → c ≠ d := by
    rintro d hd rfl
    exact absurd (h.symm.trans hd) (by decide)
  simp [lexGap, h, hne ' ' (by decide), hne (Char.ofNat 9) (by decide), hne ';' (by decide), hne ',' (by decide),
    hne '=' (by decide), hne singleQuote (by decide), hne doubleQuote (by decide)]

theorem lexChar_word {c : Char} (h : isWordChar c = true) (w : List Char) (out : List Token) :
    lexChar ⟨.word w, out⟩ c = ⟨.word (w ++ [c]), out⟩ := if_pos h

/-- Inside a name or number the reader collects what belongs to it. -/
theorem foldl_lexChar_word {cs : List Char} (h : cs.all isWordChar = true) (w : List Char) (out : List Token) :
    cs.foldl lexChar ⟨.word w, out⟩ = ⟨.word (w ++ cs), out⟩ := by
  induction cs generalizing w with
  | nil => simp
  | cons c cs ih =>
    obtain ⟨hc, hcs⟩ := Bool.and_eq_true_iff.1 h
    rw [List.foldl_cons, lexChar_word hc, ih hcs, List.append_assoc, List.singleton_append]

/-- A name or number met between two pieces. -/
theorem foldl_lexChar_gap {cs : List Char} (hne : cs ≠ []) (h : cs.all isWordChar = true) (out : List Token) :
    cs.foldl lexChar ⟨.gap, out⟩ = ⟨.word cs, out⟩ := by
  obtain ⟨c, cs, rfl⟩ := List.exists_cons_of_ne_nil hne
  obtain ⟨hc, hcs⟩ := Bool.and_eq_true_iff.1 h
  rw [List.foldl_cons, lexChar, lexGap_of_isWordChar hc, foldl_lexChar_word hcs, List.singleton_append]

theorem lexLine_word {cs : List Char} (hne : cs ≠ []) (h : cs.all isWordChar = true) :
    lexLine cs = some [.word cs] := by
  rw [lexLine, foldl_lexChar_gap hne h]
  rfl

theorem lexLine_word_space_word {cs ds : List Char} (hc : cs ≠ []) (hcs : cs.all isWordChar = true) (hd : ds ≠ [])
    (hds : ds.all isWordChar = true) : lexLine (cs ++ [' '] ++ ds) = some [.word cs, .word ds] := by
  have hspace : lexChar ⟨.word cs, []⟩ ' ' = ⟨.gap, [.word cs]⟩ := rfl
  rw [lexLine, List.foldl_append, List.foldl_append, foldl_lexChar_gap hc hcs, List.foldl_cons, List.foldl_nil, hspace,
    foldl_lexChar_gap hd hds]
  rfl

/-! ### The operand, `0xHH` -/

@[simp] theorem isWordChar_hexChar (d : BitVec 4) : isWordChar (hexChar d) = true := by
  revert d; decide

@[simp] theorem hexDigit_hexChar (d : BitVec 4) : hexDigit (hexChar d) = some d.toNat := by
  revert d; decide

theorem byteText_ne_nil (b : Byte) : byteText b ≠ [] := List.cons_ne_nil _ _

theorem byteText_all_isWordChar (b : Byte) : (byteText b).all isWordChar = true := by
  have hmark : isWordChar '0' = true ∧ isWordChar 'x' = true := by decide
  simp [byteText, hmark]

/-- A byte is read back from its two hex digits. -/
theorem byteOperand_byteText (b : Byte) : byteOperand (.word (byteText b)) = some b := by
  have hb : 16 * (b.extractLsb' 4 4).toNat + (b.extractLsb' 0 4).toNat = b.toNat := by
    have := b.isLt
    simp only [BitVec.extractLsb'_toNat, Nat.shiftRight_eq_div_pow]
    omega
  simp only [byteText, byteOperand, digits, hexDigit_hexChar, Nat.mul_zero, Nat.zero_add, hb, BitVec.ofNat_toNat,
    BitVec.setWidth_eq]

/-! ### The name -/

/-- The names of lines that are not commands (R81, R82). -/
def lineKeywords : List (List Char) :=
  ["RESET".toList, "WR".toList, "RD".toList, "CRC.BYTES".toList, "PARSE.BYTES".toList, "SER.DATA".toList,
    "CRC.STR".toList, "SER.HDR".toList, "SER.TAIL".toList, "CHECK".toList]

/-- Any other name is looked up among the commands: without an operand, and with one (R80). -/
theorem lineOf_of_not_mem_lineKeywords {name : List Char} (hname : name ∉ lineKeywords) {i : Instr} :
    (plainCommand name = some i → lineOf name [] = some (.command i)) ∧
    (∀ {t b}, byteOperand t = some b → byteCommand name b = some i → lineOf name [t] = some (.command i)) := by
  simp only [lineKeywords, List.mem_cons, not_or] at hname
  obtain ⟨h1, h2, h3, h4, h5, h6, h7, h8, h9, h10, -⟩ := hname
  unfold lineOf
  simp only [if_neg h1, if_neg h2, if_neg h3, if_neg h4, if_neg h5, if_neg h6, if_neg h7, if_neg h8, if_neg h9,
    if_neg h10]
  constructor
  · intro hi
    rw [hi]
  · intro t b hb hi
    simp only [hb, hi, Option.map_some]

/-- What the reader needs of a command's name, for the names of R75. -/
theorem dotted_of_mem_opcodeRows : ∀ r ∈ opcodeRows,
    dotted r.mnemonic ≠ [] ∧ (dotted r.mnemonic).all isWordChar = true ∧ dotted r.mnemonic ∉ lineKeywords := by
  decide

theorem exists_row_of_mnemonic (i : Instr) : ∃ r ∈ opcodeRows, r.mnemonic = i.mnemonic := by
  cases i <;> simp [opcodeRows, Instr.mnemonic]

theorem dotted_mnemonic (i : Instr) :
    dotted i.mnemonic ≠ [] ∧ (dotted i.mnemonic).all isWordChar = true ∧ dotted i.mnemonic ∉ lineKeywords := by
  obtain ⟨r, hr, hi⟩ := exists_row_of_mnemonic i
  exact hi ▸ dotted_of_mem_opcodeRows r hr

/-! ### The line of a command (R80) -/

theorem assemble_command {text : List Char} {i : Instr} (h : parseLine text = some (.command i)) :
    assemble [text] = some [.write 0x00#8 (encode i)] := by
  simp [assemble, h, Line.expand, commandWrite]

/-- A command without an operand is its name. -/
theorem assemble_plain {i : Instr} (hi : plainCommand (dotted i.mnemonic) = some i) :
    assemble [dotted i.mnemonic] = some [.write 0x00#8 (encode i)] := by
  obtain ⟨hne, hword, hname⟩ := dotted_mnemonic i
  apply assemble_command
  rw [parseLine, lexLine_word hne hword]
  exact (lineOf_of_not_mem_lineKeywords hname).1 hi

/-- A command with an operand is its name, a space and the operand. -/
theorem assemble_operand {i : Instr} {b : Byte} (hi : byteCommand (dotted i.mnemonic) b = some i) :
    assemble [dotted i.mnemonic ++ [' '] ++ byteText b] = some [.write 0x00#8 (encode i)] := by
  obtain ⟨hne, hword, hname⟩ := dotted_mnemonic i
  apply assemble_command
  rw [parseLine, lexLine_word_space_word hne hword (byteText_ne_nil b) (byteText_all_isWordChar b)]
  exact (lineOf_of_not_mem_lineKeywords hname).2 (byteOperand_byteText b) hi

/-- Settles O6: the line is read as the name and, for three commands, the operand; both are found again. -/
theorem commandTextAssembles : Obligations.CommandTextAssembles := by
  unfold Obligations.CommandTextAssembles
  intro i
  cases i with
  | nop | crcInit | parseBegin | parseEnd | serBegin | abort => exact assemble_plain (by decide)
  | crcFeed b | parseFeed b | serStep b => exact assemble_operand (by simp [byteCommand, Instr.mnemonic, dotted])

end Sys2Proof.Machine
end

section
/-! Proof of the statement of 40_chunk_type.md: TYPE_FLAGS is six flags side by side, each at its own bit (R91 to R97). -/

namespace Sys2Proof.Machine

/-! ### TYPE_FLAGS as flags side by side (R91) -/

/-- A flag placed at bit `k` is the only bit of its word. -/
theorem getLsbD_codeAt_ofBool (b : Bool) (k : Nat) {i : Nat} (hi : i < 32) :
    (codeAt k (BitVec.ofBool b)).getLsbD i = (decide (i = k) && b) := by
  obtain hlt | rfl | hgt := lt_trichotomy i k
  · simp [codeAt, hlt, hlt.ne]
  · simp [codeAt, hi]
  · have hpast : i - k ≠ 0 := by omega
    simp [codeAt, hgt.ne', hpast]

theorem typeFlags_eq_codeAt (t : Word) :
    typeFlags t =
      codeAt 5 (BitVec.ofBool (validType t)) ||| codeAt 4 (BitVec.ofBool (alpha t)) |||
      codeAt 3 (BitVec.ofBool (safeToCopy t)) ||| codeAt 2 (BitVec.ofBool (reservedBit t)) |||
      codeAt 1 (BitVec.ofBool (isPrivate t)) ||| codeAt 0 (BitVec.ofBool (ancillary t)) := by
  simp only [typeFlags, codeAt, BitVec.shiftLeft_zero]

/-- Bits of TYPE_FLAGS, as the flags they are. -/
theorem getLsbD_typeFlags (t : Word) {i : Nat} (hi : i < 32) :
    (typeFlags t).getLsbD i =
      (decide (i = 5) && validType t || decide (i = 4) && alpha t || decide (i = 3) && safeToCopy t ||
        decide (i = 2) && reservedBit t || decide (i = 1) && isPrivate t || decide (i = 0) && ancillary t) := by
  simp only [typeFlags_eq_codeAt, BitVec.getLsbD_or, getLsbD_codeAt_ofBool _ _ hi]

/-- The bit of each flag. -/
theorem typeFlags_flags (t : Word) :
    (typeFlags t).getLsbD 0 = ancillary t ∧ (typeFlags t).getLsbD 1 = isPrivate t ∧
    (typeFlags t).getLsbD 2 = reservedBit t ∧ (typeFlags t).getLsbD 3 = safeToCopy t ∧
    (typeFlags t).getLsbD 4 = alpha t ∧ (typeFlags t).getLsbD 5 = validType t := by
  simp [-BitVec.getLsbD_eq_getElem, getLsbD_typeFlags]

/-- Above the six flags the word is 0. -/
theorem typeFlags_zero (t : Word) : (typeFlags t).extractLsb' 6 26 = 0#26 := by
  rw [typeFlags_eq_codeAt]
  simp [BitVec.extractLsb'_or, extractLsb'_codeAt_of_disjoint]

/-! ### The flags of four type bytes (R92 to R97) -/

/-- Each property bit is bit 5 of its type byte (R92 to R95). -/
theorem propertyBits_eq_byteOf (t : Word) :
    ancillary t = (byteOf t 0#32).getLsbD 5 ∧ isPrivate t = (byteOf t 1#32).getLsbD 5 ∧
    reservedBit t = (byteOf t 2#32).getLsbD 5 ∧ safeToCopy t = (byteOf t 3#32).getLsbD 5 := by
  simp [ancillary, isPrivate, reservedBit, safeToCopy, byteOf]

theorem propertyBits_append (b0 b1 b2 b3 : Byte) :
    ancillary (b0 ++ b1 ++ b2 ++ b3) = b0.getLsbD 5 ∧ isPrivate (b0 ++ b1 ++ b2 ++ b3) = b1.getLsbD 5 ∧
    reservedBit (b0 ++ b1 ++ b2 ++ b3) = b2.getLsbD 5 ∧ safeToCopy (b0 ++ b1 ++ b2 ++ b3) = b3.getLsbD 5 := by
  obtain ⟨h0, h1, h2, h3, -⟩ := bigEndianBytes.1 b0 b1 b2 b3
  simpa only [h0, h1, h2, h3] using propertyBits_eq_byteOf (b0 ++ b1 ++ b2 ++ b3)

theorem isLetter_iff (b : Byte) :
    isLetter b = true ↔ (0x41#8 ≤ b ∧ b ≤ 0x5A#8) ∨ (0x61#8 ≤ b ∧ b ≤ 0x7A#8) := by
  simp [isLetter]

theorem alpha_append_iff (b0 b1 b2 b3 : Byte) :
    alpha (b0 ++ b1 ++ b2 ++ b3) = true ↔
      isLetter b0 = true ∧ isLetter b1 = true ∧ isLetter b2 = true ∧ isLetter b3 = true := by
  obtain ⟨h0, h1, h2, h3, -⟩ := bigEndianBytes.1 b0 b1 b2 b3
  simp only [alpha, h0, h1, h2, h3, Bool.and_eq_true, and_assoc]

theorem validType_iff (t : Word) : validType t = true ↔ alpha t = true ∧ reservedBit t = false := by
  simp [validType]

/-- Settles O17: each bit of TYPE_FLAGS is one flag or 0, and each flag is read off the four type bytes. -/
theorem typeFlagsBits : Obligations.TypeFlagsBits := by
  unfold Obligations.TypeFlagsBits
  refine ⟨fun s v => ⟨?read, ?write⟩, fun b0 b1 b2 b3 => ?bits⟩
  case read => rw [transact_read, regAt_typeFlags]; rfl
  case write => rw [transact_write, regAt_typeFlags]; rfl
  case bits =>
    obtain ⟨h0, h1, h2, h3⟩ := propertyBits_append b0 b1 b2 b3
    obtain ⟨bit0, bit1, bit2, bit3, bit4, bit5⟩ := typeFlags_flags (b0 ++ b1 ++ b2 ++ b3)
    simp only [← isLetter_iff]
    refine ⟨bit0.trans h0, bit1.trans h1, bit2.trans h2, bit3.trans h3, ?alpha, ?valid, typeFlags_zero _⟩
    case alpha => rw [bit4, alpha_append_iff]
    case valid => rw [bit5, validType_iff, alpha_append_iff, h2]

end Sys2Proof.Machine
end

section
/-! Proofs of the statements of 41_crc.md about the CRC itself: the table form (R101) and the MSB-first form (R103). -/

namespace Sys2Proof.Machine

/-! ### The table form (R101) -/

@[simp] theorem setWidth_byte_ushiftRight_eight (b : Byte) : b.setWidth 32 >>> 8 = 0#32 := by
  apply BitVec.eq_of_getLsbD_eq
  intro i hi
  simp

/-- The update is additive, and on what `x` has above `low`, whose low `n` bits are clear, it only shifts. -/
theorem crcBits_of_low_bits_eq {n : Nat} {x low : Word} (h : ∀ i, i < n → x.getLsbD i = low.getLsbD i) :
    crcBits n x = ((x ^^^ low) >>> n) ^^^ crcBits n low := by
  have hsplit : x = (x ^^^ low) ^^^ low := by rw [BitVec.xor_assoc, BitVec.xor_self, BitVec.xor_zero]
  have hclear : ∀ i, i < n → (x ^^^ low).getLsbD i = false := fun i hi => by simp [h i hi]
  conv_lhs => rw [hsplit, crcBits_xor, crcBits_of_low_clear n _ hclear]

/-- Eight bits of the update take in the low byte and shift the rest. -/
theorem crcBits_eight_eq_table (x : Word) : crcBits 8 x = (x >>> 8) ^^^ crcByte 0#32 (x.extractLsb' 0 8) := by
  have hlow : ∀ i, i < 8 → x.getLsbD i = ((x.extractLsb' 0 8).setWidth 32).getLsbD i := by
    intro i hi
    have hword : i < 32 := by omega
    simp [hi, hword]
  rw [crcBits_of_low_bits_eq hlow, BitVec.ushiftRight_xor_distrib, setWidth_byte_ushiftRight_eight, BitVec.xor_zero,
    crcByte, BitVec.zero_xor]

/-- Settles O46: the byte is added to the register's low byte, which the table takes in; above it nothing is added. -/
theorem crcTableForm : Obligations.CrcTableForm := by
  unfold Obligations.CrcTableForm
  intro c b
  have hbyte : 0#24 ++ b = b.setWidth 32 := (BitVec.setWidth_eq_append (by decide)).symm
  rw [hbyte, crcByte, crcBits_eight_eq_table, BitVec.ushiftRight_xor_distrib, setWidth_byte_ushiftRight_eight,
    BitVec.xor_zero]

/-! ### The MSB-first form (R103) -/

theorem reverse_xor (x y : Word) : (x ^^^ y).reverse = x.reverse ^^^ y.reverse := by
  apply BitVec.eq_of_getLsbD_eq
  intro i _
  simp only [BitVec.getLsbD_reverse, BitVec.getLsbD_xor, BitVec.getMsbD_xor]

theorem reverse_ushiftRight_one (x : Word) : (x >>> 1).reverse = x.reverse <<< 1 := by
  apply BitVec.eq_of_getLsbD_eq
  intro i hi
  simp only [BitVec.getLsbD_reverse, BitVec.getMsbD_ushiftRight, BitVec.getLsbD_shiftLeft, Bool.and_assoc]

theorem reverse_crcPolyReflected : Config.crcPolyReflected.reverse = Config.crcPolyNormal := by decide +kernel

theorem reverse_crcInit : Config.crcInit.reverse = Config.crcInit := by decide +kernel

/-- One bit of the update is, seen in the reversed register, one bit of the MSB-first register. What is added to the
register beforehand (`y`) gives the input bit at its bit 0; its other bits wait in the register. -/
theorem reverse_crcBit_xor (c y : Word) :
    (crcBit (c ^^^ y)).reverse = crcMsbBit c.reverse (y.getLsbD 0) ^^^ (y >>> 1).reverse := by
  have hshift : ((c ^^^ y) >>> 1).reverse = (c.reverse <<< 1) ^^^ (y >>> 1).reverse := by
    rw [BitVec.ushiftRight_xor_distrib, reverse_xor, reverse_ushiftRight_one]
  rw [crcBit, crcMsbBit, BitVec.getMsbD_reverse, BitVec.getLsbD_xor]
  split
  · rw [reverse_xor, hshift, reverse_crcPolyReflected]
    ac_rfl
  · exact hshift

theorem crcBits_succ (n : Nat) (c : Word) : crcBits (n + 1) c = crcBit (crcBits n c) := by
  induction n generalizing c with
  | zero => rfl
  | succ n ih => exact ih (crcBit c)

/-- The bits of a word added to the register at once are taken in one by one. -/
theorem reverse_crcBits_xor (n : Nat) (c x : Word) :
    (crcBits n (c ^^^ x)).reverse =
      (List.range n).foldl (fun r i => crcMsbBit r (x.getLsbD i)) c.reverse ^^^ (x >>> n).reverse := by
  induction n with
  | zero => simp [crcBits, reverse_xor]
  | succ n ih =>
    have hstep : crcBits n (c ^^^ x) = crcBits n (c ^^^ x) ^^^ (x >>> n) ^^^ (x >>> n) := by
      rw [BitVec.xor_assoc, BitVec.xor_self, BitVec.xor_zero]
    have htaken : (crcBits n (c ^^^ x) ^^^ (x >>> n)).reverse =
        (List.range n).foldl (fun r i => crcMsbBit r (x.getLsbD i)) c.reverse := by
      rw [reverse_xor, ih, BitVec.xor_assoc, BitVec.xor_self, BitVec.xor_zero]
    rw [crcBits_succ, hstep, reverse_crcBit_xor, htaken, List.range_succ, List.foldl_append, BitVec.shiftRight_add]
    simp

theorem crcMsbByte_reverse (c : Word) (b : Byte) : crcMsbByte c.reverse b.reverse = (crcByte c b).reverse := by
  have hzero : (0#32).reverse = 0#32 := BitVec.reverse_eq_zero_iff.2 rfl
  rw [crcByte, reverse_crcBits_xor, setWidth_byte_ushiftRight_eight, hzero, BitVec.xor_zero, crcMsbByte]
  simp [List.range_succ, BitVec.getElem_reverse, BitVec.getMsbD_eq_getLsbD]

theorem crcMsbRemainder_eq_reverse (m : List Byte) : crcMsbRemainder m = (crcRaw m).reverse := by
  rw [crcMsbRemainder, crcRaw, ← reverse_crcInit, List.foldl_hom BitVec.reverse crcMsbByte_reverse, reverse_crcInit]

/-- Settles O48: the MSB-first register holds the reversed CRC register after each byte. -/
theorem crcMsbFirstForm : Obligations.CrcMsbFirstForm := by
  unfold Obligations.CrcMsbFirstForm
  intro m
  rw [crcMsbRemainder_eq_reverse, BitVec.reverse_reverse_eq]
  rfl

end Sys2Proof.Machine
end

section
/-! Proofs of the statements of 41_crc.md about the host's use of the engine: CRC_INIT (R104), CRC_FEED (R105), the
CRC-32 of a byte string (R102) and its check against an expected one (R106). -/

namespace Sys2Proof.Machine

/-! ### Words of OP 1 and OP 2 (R74, R75) -/

/-- The word of a command whose operand stands over its OP, as the rules write it. -/
theorem append_eq_packWord (b : Byte) (op : BitVec 4) : 0#16 ++ b ++ (0#4 ++ op) = packWord op b :=
  BitVec.append_assoc'

/-- A word with the OP of a command without an operand is that command's own word or illegal (R74). -/
theorem transact_write_cmd_of_ne_packWord {op : BitVec 4} (hop : ¬ (op = 2#4 ∨ op = 4#4 ∨ op = 7#4)) {w : Word}
    (hw : opField w = op) (hne : w ≠ packWord op 0#8) (s : State) :
    transact (.write 0x00#8 w) s = .next { s with err := .illegal } := by
  refine transact_write_cmd_of_not_decodes (fun hdec => ?_) s
  obtain ⟨hrsv1, hrsv0, -, hoperand⟩ := (decodes_iff_fields w).1 hdec
  rw [hw] at hoperand
  exact hne ((eq_packWord_iff w op 0#8).2 ⟨hrsv1, hrsv0, hw, hoperand.resolve_left hop⟩)

/-! ### The two commands in each STATE (R104, R105, R168) -/

theorem exec_crcInit_of_idle {s : State} (h : s.opState = .idle) :
    exec .crcInit s = .next { s with crcState := 0xFFFFFFFF#32, err := .none } :=
  exec_accepted ((acceptedIn_crcInit _).2 h)

theorem exec_crcFeed_of_idle (b : Byte) {s : State} (h : s.opState = .idle) :
    exec (.crcFeed b) s = .next { s with crcState := crcByte s.crcState b, err := .none } :=
  exec_accepted ((acceptedIn_crcFeed b _).2 h)

/-- Settles O26: CRC_INIT is accepted in IDLE alone, and its word is the only legal one of its OP. -/
theorem crcInitCommand : Obligations.CrcInitCommand := by
  unfold Obligations.CrcInitCommand
  refine ⟨decode_encode .crcInit, fun s => exec_crcInit_of_idle, fun s ho => ?refused,
    fun w s hop hw => transact_write_cmd_of_ne_packWord (by decide) hop hw s, fun s ho => ?reads⟩
  case refused => obtain ho | ho := ho <;> exact exec_refused (by rw [ho]; rfl)
  case reads => exact ⟨_, exec_crcInit_of_idle ho, BitVec.xor_self, rfl⟩

/-- Settles O27: CRC_FEED is accepted in IDLE alone, with any byte as its operand. -/
theorem crcFeedCommand : Obligations.CrcFeedCommand := by
  unfold Obligations.CrcFeedCommand
  refine ⟨fun b => ?decodes, fun b s => exec_crcFeed_of_idle b, fun b s ho => ?refused,
    fun w s _ hrsv => reservedBitsOperandsAndOpsAreIllegal w s (hrsv.imp_right .inl), ?examples⟩
  case decodes => exact (congrArg decode (append_eq_packWord b 2#4)).trans (decode_encode (.crcFeed b))
  case refused => obtain ho | ho := ho <;> exact exec_refused (by rw [ho]; rfl)
  case examples => decide +kernel

/-! ### The CRC-32 of a byte string (R102) -/

theorem crcRaw_append_singleton (m : List Byte) (b : Byte) : crcRaw (m ++ [b]) = crcByte (crcRaw m) b :=
  List.foldl_concat ..

/-- One CRC_FEED for each byte, with no error recorded before. -/
theorem transactAll_crcFeeds (m : List Byte) (c : Word) {s : State} (ho : s.opState = .idle) :
    transactAll (m.map fun b => commandWrite (.crcFeed b)) { s with crcState := c, err := .none } =
      .next { s with crcState := m.foldl crcByte c, err := .none } := by
  induction m generalizing c with
  | nil => rfl
  | cons b bs ih =>
    have hfeed : transact (commandWrite (.crcFeed b)) { s with crcState := c, err := .none } =
        .next { s with crcState := crcByte c b, err := .none } :=
      (transact_commandWrite _ _).trans (exec_crcFeed_of_idle b ho)
    exact (transactAll_cons_of_next hfeed _).trans (ih (crcByte c b))

/-- CRC_INIT and one CRC_FEED for each byte. -/
theorem transactAll_crcInit_crcFeeds (m : List Byte) {s : State} (ho : s.opState = .idle) :
    transactAll ([commandWrite .crcInit] ++ m.map fun b => commandWrite (.crcFeed b)) s =
      .next { s with crcState := crcRaw m, err := .none } := by
  have hinit := (transact_commandWrite .crcInit s).trans (exec_crcInit_of_idle ho)
  exact (transactAll_cons_of_next hinit _).trans (transactAll_crcFeeds m _ ho)

/-- Settles O47: each CRC_FEED is one step of the fold that `crcRaw` is. -/
theorem feedingBytesComputesCrc32 : Obligations.FeedingBytesComputesCrc32 := by
  unfold Obligations.FeedingBytesComputesCrc32
  refine ⟨fun m s ho => ?_, by decide, rfl, crcRaw_append_singleton, fun m => rfl⟩
  exact transactAll_append_of_next (transactAll_crcInit_crcFeeds m ho) _

/-! ### The check of a byte string (R106) -/

theorem transact_write_crcExpect_of_idle (v : Word) {s : State} (ho : s.opState = .idle) :
    transact (.write 0x14#8 v) s = .next { s with crcExpect := v, err := .none } := by
  rw [transact_write, regAt_crcExpect]
  exact acceptIn_of_mem (effect := fun s => { s with crcExpect := v }) (List.mem_singleton.2 ho)

/-- CRC_EXPECT written between the bytes, or after them where `n` is empty. -/
theorem transactAll_check_between (m n : List Byte) (v : Word) {s : State} (ho : s.opState = .idle) :
    transactAll ([commandWrite .crcInit] ++ (m.map fun b => commandWrite (.crcFeed b)) ++ [.write 0x14#8 v] ++
      n.map fun b => commandWrite (.crcFeed b)) s =
      .next { s with crcState := crcRaw (m ++ n), crcExpect := v, err := .none } := by
  have hwrite := transact_write_crcExpect_of_idle v (s := { s with crcState := crcRaw m, err := .none }) ho
  rw [List.append_assoc, transactAll_append_of_next (transactAll_crcInit_crcFeeds m ho), List.singleton_append,
    transactAll_cons_of_next hwrite, crcRaw, crcRaw, List.foldl_append]
  exact transactAll_crcFeeds n _ (s := { s with crcExpect := v }) ho

/-- CRC_EXPECT written before the bytes. -/
theorem transactAll_check_before (m : List Byte) (v : Word) {s : State} (ho : s.opState = .idle) :
    transactAll ([.write 0x14#8 v, commandWrite .crcInit] ++ m.map fun b => commandWrite (.crcFeed b)) s =
      .next { s with crcState := crcRaw m, crcExpect := v, err := .none } :=
  (transactAll_cons_of_next (transact_write_crcExpect_of_idle v ho) _).trans (transactAll_crcInit_crcFeeds m ho)

/-- A Read of STATUS after a run of transactions returns a word whose bit 4 is MATCH. -/
theorem transactAll_read_status {ts : List Transaction} {s u : State} (h : transactAll ts s = .next u) :
    transactAll (ts ++ [.read 0x04#8]) s = .next (recordRead u.status u) := by
  rw [transactAll_append_of_next h]
  rfl

/-- Settles O49: after the CRC_FEEDs CRC_VALUE is CRC32 of the bytes, wherever among them CRC_EXPECT was written. -/
theorem checkerMatchesExactlyTheCrc : Obligations.CheckerMatchesExactlyTheCrc := by
  unfold Obligations.CheckerMatchesExactlyTheCrc
  refine ⟨fun m n v s ho => ⟨?between, ?before⟩, ?sample⟩
  case between =>
    exact ⟨_, _, transactAll_read_status (transactAll_check_between m n v ho), rfl,
      by rw [status_bit_match]; exact isMatch_iff _⟩
  case before =>
    exact ⟨_, _, transactAll_read_status (transactAll_check_before m v ho), rfl,
      by rw [status_bit_match]; exact isMatch_iff _⟩
  case sample =>
    have hrun := transactAll_read_status
      (transactAll_check_between [0x49#8, 0x45#8, 0x4E#8, 0x44#8] [] 0xAE426082#32 (s := State.reset) rfl)
    exact ⟨_, hrun, by decide +kernel⟩

end Sys2Proof.Machine
end

section
/-! Proofs of the statements of 41_crc.md, 42_parser.md and 43_serializer.md about what a command leaves unchanged: the
registers of each command (R104, R105, R121 to R125, R141 to R143), and CRC_STATE during a frame (R107, R109). -/

namespace Sys2Proof.Machine

/-! ### The registers a frame byte changes (R122, R142) -/

/-- A PARSE_FEED changes the register of the field it is in. -/
theorem parseByte_changes_only_its_field (b : Byte) (s : State) :
    ((parseByte b s).length ≠ s.length → s.field = .len) ∧
    ((parseByte b s).chunkType ≠ s.chunkType → s.field = .type) ∧
    ((parseByte b s).crcExpect ≠ s.crcExpect → s.field = .crc) ∧
    ((parseByte b s).crcState ≠ s.crcState → s.field = .type ∨ s.field = .data) := by
  cases hf : s.field with
  | len => simp [parseByte_len hf]
  | type => simp [parseByte_type hf]
  | data => simp [parseByte_data hf]
  | crc =>
    by_cases hlast : s.count = 3#32
    · simp [parseByte_crc_last hf hlast]
    · simp [parseByte_crc hf hlast]

/-- A SER_STEP changes none of the host's registers, and CRC_STATE in TYPE and DATA alone. -/
theorem serializeByte_changes_only_the_crc (d : Byte) (s : State) :
    (serializeByte d s).length = s.length ∧ (serializeByte d s).chunkType = s.chunkType ∧
    (serializeByte d s).crcExpect = s.crcExpect ∧
    ((serializeByte d s).crcState ≠ s.crcState → s.field = .type ∨ s.field = .data) := by
  cases hf : s.field with
  | len => simp [serializeByte_len hf]
  | type => simp [serializeByte_type hf]
  | data => simp [serializeByte_data hf]
  | crc =>
    by_cases hlast : s.count = 3#32
    · simp [serializeByte_crc_last hf hlast]
    · simp [serializeByte_crc hf hlast]

/-- STATE and RESULT change at the fourth CRC byte of a parse alone. -/
theorem parseByte_ends_at_the_last_crc_byte {b : Byte} {s : State}
    (h : (parseByte b s).opState ≠ s.opState ∨ (parseByte b s).result ≠ s.result) :
    s.field = .crc ∧ s.count = 3#32 := by
  obtain ⟨hf, hc, -⟩ | ⟨hstate, hresult⟩ := parseByte_ends_or_goes_on b s
  · exact ⟨hf, hc⟩
  · simp [hstate, hresult] at h

/-- STATE and RESULT change at the fourth CRC byte of a serialization alone. -/
theorem serializeByte_ends_at_the_last_crc_byte {d : Byte} {s : State}
    (h : (serializeByte d s).opState ≠ s.opState ∨ (serializeByte d s).result ≠ s.result) :
    s.field = .crc ∧ s.count = 3#32 := by
  obtain ⟨hf, hc, -⟩ | ⟨hstate, hresult⟩ := serializeByte_ends_or_goes_on d s
  · exact ⟨hf, hc⟩
  · simp [hstate, hresult] at h

/-- Settles O36: a refused command changes ERR alone; of the accepted ones the frame bytes change the register of their
field, and of the others each writes what its rule names. -/
theorem commandsChangeOnlyTheirRegisters : Obligations.CommandsChangeOnlyTheirRegisters := by
  unfold Obligations.CommandsChangeOnlyTheirRegisters
  intro i s t h
  obtain ⟨-, rfl⟩ | ⟨-, rfl⟩ := exec_next h
  case inr => simp -- refused
  case inl =>
    cases i with
    | nop | crcInit | crcFeed b | parseBegin | parseEnd | serBegin => simp [effectOf]
    | parseFeed b =>
      obtain ⟨hlength, htype, hexpect, hcrc⟩ := parseByte_changes_only_its_field b s
      have hends := parseByte_ends_at_the_last_crc_byte (b := b) (s := s)
      simpa [effectOf] using ⟨hlength, htype, hexpect, hcrc, hends⟩
    | serStep d =>
      obtain ⟨hlength, htype, hexpect, hcrc⟩ := serializeByte_changes_only_the_crc d s
      have hends := serializeByte_ends_at_the_last_crc_byte (d := d) (s := s)
      simpa [effectOf, hlength, htype, hexpect] using ⟨hcrc, hends⟩
    | abort =>
      obtain ⟨-, hs⟩ | ⟨-, hs⟩ := abortFrame_cases s <;> simp [effectOf, hs]

/-! ### The CRC engine during a frame (R107, R109) -/

theorem transact_of_issues {x : Transaction} {i : Instr} (hx : Issues x i) (s : State) : transact x s = exec i s := by
  obtain ⟨off, hslot, rfl⟩ := hx
  exact transact_write_cmd_of_decode_ok ((regAt_eq_cmd_iff off).2 hslot) (decode_encode i) s

/-- Outside IDLE an accepted command that changes CRC_STATE is a frame byte in TYPE or DATA. -/
theorem frame_byte_of_crcState_ne {i : Instr} {s : State} (ho : s.opState ≠ .idle)
    (ha : acceptedIn i s.opState = true) (hne : (setErr .none (effectOf i s)).crcState ≠ s.crcState) :
    (s.field = .type ∨ s.field = .data) ∧
      ((s.opState = .parse ∧ ∃ b, i = .parseFeed b) ∨ (s.opState = .ser ∧ ∃ d, i = .serStep d)) := by
  obtain ⟨-, -, -, -, -, hcrc, -⟩ := commandsChangeOnlyTheirRegisters i s _ (exec_accepted ha)
  obtain rfl | rfl | rfl | ⟨b, rfl⟩ | ⟨hf, ⟨b, rfl⟩ | ⟨d, rfl⟩⟩ := hcrc hne
  · exact absurd ((acceptedIn_crcInit _).1 ha) ho
  · exact absurd ((acceptedIn_parseBegin _).1 ha) ho
  · exact absurd ((acceptedIn_serBegin _).1 ha) ho
  · exact absurd ((acceptedIn_crcFeed b _).1 ha) ho
  · exact ⟨hf, .inl ⟨OpState.eq_of_accepts_parseFeed ha, b, rfl⟩⟩
  · exact ⟨hf, .inr ⟨OpState.eq_of_accepts_serStep ha, d, rfl⟩⟩

/-- In TYPE and DATA the engine takes the byte a PARSE_FEED leaves in OUT_BYTE. -/
theorem parseByte_crcState (b : Byte) {s : State} (hf : s.field = .type ∨ s.field = .data) :
    (parseByte b s).crcState = crcByte s.crcState (parseByte b s).outByte := by
  obtain hf | hf := hf
  · rw [parseByte_type hf]
  · rw [parseByte_data hf]

/-- In TYPE and DATA the engine takes the byte a SER_STEP leaves in OUT_BYTE. -/
theorem serializeByte_crcState (d : Byte) {s : State} (hf : s.field = .type ∨ s.field = .data) :
    (serializeByte d s).crcState = crcByte s.crcState (serializeByte d s).outByte := by
  obtain hf | hf := hf
  · rw [serializeByte_type hf]
  · rw [serializeByte_data hf]

/-- Settles O40: of the transactions only an accepted command reaches CRC_STATE outside IDLE, and of the commands only a
frame byte in TYPE or DATA. -/
theorem frameOwnsTheCrcEngine : Obligations.FrameOwnsTheCrcEngine := by
  unfold Obligations.FrameOwnsTheCrcEngine
  intro x s ho hx
  obtain ⟨u, hu⟩ := transact_total x s
  refine ⟨u, hu, fun hne => ?changes, ?parse, ?serialize⟩
  case changes =>
    obtain ⟨hreset, -⟩ | ⟨v, rfl⟩ | ⟨i, hi, ha, rfl⟩ | ⟨e, rfl⟩ | ⟨hidle, -⟩ | rfl := transact_next hu
    · exact absurd hreset hx
    · exact absurd rfl hne -- a Read
    · obtain ⟨hf, ⟨hparse, b, rfl⟩ | ⟨hser, d, rfl⟩⟩ := frame_byte_of_crcState_ne ho ha hne
      · exact ⟨hf, .inl ⟨hparse, b, hi⟩⟩
      · exact ⟨hf, .inr ⟨hser, d, hi⟩⟩
    · exact absurd rfl hne -- a refused or illegal write
    · exact absurd hidle ho -- a configuration register
    · exact absurd rfl hne -- an ignored write
  case parse =>
    rintro hf hparse ⟨b, hb⟩
    rw [transact_of_issues hb, exec_accepted (by rw [hparse]; rfl)] at hu
    cases hu
    exact parseByte_crcState b hf
  case serialize =>
    rintro hf hser ⟨d, hd⟩
    rw [transact_of_issues hd, exec_accepted (by rw [hser]; rfl)] at hu
    cases hu
    exact serializeByte_crcState d hf

end Sys2Proof.Machine
end

section
/-! Proof of the statement of 41_crc.md that a single-bit error in a frame is detected (R108): what the parser makes of
a byte string with the lengths of a frame, and what an inverted bit does to the CRC. -/

namespace Sys2Proof.Machine

/-! ### The parse of a byte string with the lengths of a frame (R120 to R123) -/

/-- A parse before the first byte of field `f`, with the length, type and CRC register so far and the byte last fed. -/
def parsingAt (f : Field) (L T c : Word) (out : Byte) (s : State) : State :=
  { s with
    opState := .parse
    field := f
    count := 0#32
    length := L
    chunkType := T
    crcState := c
    crcExpect := 0#32
    outByte := out
    result := .none
    err := .none }

/-- What a parse of length, type, data and stored CRC leaves: the fields of the frame and the verdict on it (R123). -/
def parsedFrame (L T : Word) (data : List Byte) (C : Word) (s : State) : State :=
  { s with
    opState := .idle
    field := .len
    count := 0#32
    length := L
    chunkType := T
    crcState := crcRaw (coveredBytes T data)
    crcExpect := C
    outByte := C.extractLsb' 0 8
    result := verdict C (crcRaw (coveredBytes T data))
    err := .none }

theorem transactAll_parseRun_of_idle (bs : List Byte) {s : State} (ho : s.opState = .idle) :
    transactAll (parseRun bs) s = transactAll (feedAll bs) (parsingAt .len 0#32 0#32 Config.crcInit 0#8 s) :=
  parseRun_of_idle bs s ho

theorem feed_length_bytes (L l T c : Word) (out : Byte) (s : State) :
    transactAll (feedAll (wordBytes L)) (parsingAt .len l T c out s) =
      .next (parsingAt .type L T c (L.extractLsb' 0 8) s) := by
  have hfeed := feed_len (L.extractLsb' 24 8) (L.extractLsb' 16 8) (L.extractLsb' 8 8) (L.extractLsb' 0 8)
    (parsingAt .len l T c out s) rfl rfl rfl
  rwa [← bigEndian_four, ← wordBytes, bigEndian_wordBytes] at hfeed

theorem feed_type_bytes (L T t c : Word) (out : Byte) (s : State) :
    transactAll (feedAll (wordBytes T)) (parsingAt .type L t c out s) =
      .next (parsingAt (if L = 0#32 then .crc else .data) L T ((wordBytes T).foldl crcByte c)
        (T.extractLsb' 0 8) s) := by
  have hfeed := feed_type (T.extractLsb' 24 8) (T.extractLsb' 16 8) (T.extractLsb' 8 8) (T.extractLsb' 0 8)
    (parsingAt .type L t c out s) rfl rfl rfl
  rwa [← bigEndian_four, ← wordBytes, bigEndian_wordBytes] at hfeed

/-- As many data bytes as the length says, none where DATA is skipped. -/
theorem feed_data_bytes {L : Word} {data : List Byte} (hlen : data.length = L.toNat) (T c : Word) (out : Byte)
    (s : State) :
    ∃ last, transactAll (feedAll data) (parsingAt (if L = 0#32 then .crc else .data) L T c out s) =
      .next (parsingAt .crc L T (data.foldl crcByte c) last s) := by
  by_cases hL : L = 0#32
  · obtain rfl : data = [] := List.length_eq_zero_iff.1 (by simp [hlen, hL])
    exact ⟨out, by rw [if_pos hL]; rfl⟩
  · have hne : data ≠ [] := by
      rintro rfl
      exact hL (BitVec.eq_of_toNat_eq hlen.symm)
    rw [if_neg hL]
    exact ⟨_, feed_data data (parsingAt .data L T c out s) rfl rfl hne (by simpa [parsingAt] using hlen)⟩

theorem feed_crc_bytes (L T c C : Word) (out : Byte) (s : State) :
    transactAll (feedAll (wordBytes C)) (parsingAt .crc L T c out s) =
      .next { parsingAt .len L T c (C.extractLsb' 0 8) s with
        opState := .idle, crcExpect := C, result := verdict C c } := by
  have hfeed := feed_crc (C.extractLsb' 24 8) (C.extractLsb' 16 8) (C.extractLsb' 8 8) (C.extractLsb' 0 8)
    (parsingAt .crc L T c out s) rfl rfl rfl
  rwa [← bigEndian_four, ← wordBytes, bigEndian_wordBytes] at hfeed

/-- Length, type, as many data bytes as the length says, and any stored CRC: the parse goes to the last byte. -/
theorem transactAll_parseRun_frame (L T : Word) {data : List Byte} (hlen : data.length = L.toNat) (C : Word)
    {s : State} (ho : s.opState = .idle) :
    transactAll (parseRun (wordBytes L ++ (coveredBytes T data ++ wordBytes C))) s =
      .next (parsedFrame L T data C s) := by
  obtain ⟨last, hdata⟩ := feed_data_bytes hlen T ((wordBytes T).foldl crcByte Config.crcInit) (T.extractLsb' 0 8) s
  rw [transactAll_parseRun_of_idle _ ho, feed_append _ _ (feed_length_bytes ..), coveredBytes, List.append_assoc,
    feed_append _ _ (feed_type_bytes ..), feed_append _ _ hdata, feed_crc_bytes, ← List.foldl_append]
  rfl

/-! ### The bytes of a frame -/

theorem wordBytes_bigEndian {bs : List Byte} (h : bs.length = 4) : wordBytes (bigEndian bs) = bs := by
  obtain ⟨a, b, c, d, rfl⟩ := List.length_eq_four.1 h
  rw [bigEndian_four, wordBytes_append]

/-- Four bytes and `n` more are a type and `n` data bytes. -/
theorem exists_eq_coveredBytes {m : List Byte} {n : Nat} (h : m.length = 4 + n) :
    ∃ T data, m = coveredBytes T data ∧ data.length = n := by
  refine ⟨bigEndian (m.take 4), m.drop 4, ?_, by simp [h]⟩
  rw [coveredBytes, wordBytes_bigEndian (by simp [h]), List.take_append_drop]

/-- The covered bytes may be any; a stored CRC that is not theirs ends the parse with CRC_MISMATCH. -/
theorem parseRun_mismatch {L C : Word} {m : List Byte} (hlen : m.length = 4 + L.toNat) (hC : C ≠ crc32 m)
    {s : State} (ho : s.opState = .idle) :
    ∃ t, transactAll (parseRun (wordBytes L ++ (m ++ wordBytes C))) s = .next t ∧
      t.opState = .idle ∧ t.result = .crcMismatch ∧ t.err = .none := by
  obtain ⟨T, data, rfl, hdata⟩ := exists_eq_coveredBytes hlen
  exact ⟨_, transactAll_parseRun_frame L T hdata C ho, rfl, if_neg hC, rfl⟩

/-! ### An inverted bit (R108) -/

@[simp] theorem length_flipBit (bs : List Byte) (i : Nat) (k : Fin 8) : (flipBit bs i k).length = bs.length :=
  List.length_modify ..

theorem flipBit_append_left {xs : List Byte} {i : Nat} (h : i < xs.length) (ys : List Byte) (k : Fin 8) :
    flipBit (xs ++ ys) i k = flipBit xs i k ++ ys := by
  induction xs generalizing i with
  | nil => simp at h
  | cons x xs ih =>
    cases i with
    | zero => rfl
    | succ i => exact congrArg (x :: ·) (ih (by simpa using h))

theorem flipBit_append_right (xs ys : List Byte) (i : Nat) (k : Fin 8) :
    flipBit (xs ++ ys) (xs.length + i) k = xs ++ flipBit ys i k := by
  induction xs with
  | nil => simp
  | cons x xs ih =>
    rw [List.length_cons, Nat.add_right_comm]
    exact congrArg (x :: ·) ih

theorem byte_flipped_ne (b : Byte) (k : Fin 8) : b ^^^ (1#8 <<< k.val) ≠ b := by
  intro h
  have hbit := congrArg (fun x => x.getLsbD k.val) h
  simp at hbit

/-- Exactly the byte at the index changes. -/
theorem flipBit_changes_one_byte {bs : List Byte} {i : Nat} (h : i < bs.length) (k : Fin 8) :
    ∃ xs b b' ys, b' ≠ b ∧ bs = xs ++ b :: ys ∧ flipBit bs i k = xs ++ b' :: ys := by
  obtain ⟨xs, b, ys, hbs, -, hflip⟩ := List.exists_of_modify (fun b => b ^^^ (1#8 <<< k.val)) h
  exact ⟨xs, b, _, ys, byte_flipped_ne b k, hbs, hflip⟩

theorem flipBit_ne {bs : List Byte} {i : Nat} (h : i < bs.length) (k : Fin 8) : flipBit bs i k ≠ bs := by
  obtain ⟨xs, b, b', ys, hne, rfl, hflip⟩ := flipBit_changes_one_byte h k
  simp [hflip, hne]

/-- One byte changed leaves the register different, and the bytes after it keep it different. -/
theorem crc32_flipBit_ne {m : List Byte} {i : Nat} (h : i < m.length) (k : Fin 8) : crc32 m ≠ crc32 (flipBit m i k) := by
  obtain ⟨xs, b, b', ys, hne, rfl, hflip⟩ := flipBit_changes_one_byte h k
  intro hcrc
  have hraw : crcRaw (xs ++ b :: ys) = crcRaw (xs ++ b' :: ys) := by
    simpa [crc32, hflip] using hcrc
  rw [crcRaw, crcRaw, List.foldl_append, List.foldl_append] at hraw
  exact hne (crcByte_injective_right (foldl_crcByte_injective ys hraw)).symm

/-- A frame with a bit of type, data or CRC inverted has the lengths of a frame and a stored CRC that is not that of its
type and data. -/
theorem exists_flipBit_frameBytes (L T : Word) (data : List Byte) {i : Nat} (h : i < data.length + 8) (k : Fin 8) :
    ∃ m C, flipBit (frameBytes L T data) (4 + i) k = wordBytes L ++ (m ++ wordBytes C) ∧
      m.length = 4 + data.length ∧ C ≠ crc32 m := by
  have hm : (coveredBytes T data).length = 4 + data.length := by simp [coveredBytes]
  have hframe : frameBytes L T data =
      wordBytes L ++ (coveredBytes T data ++ wordBytes (crc32 (coveredBytes T data))) := by
    simp [frameBytes, coveredBytes]
  generalize coveredBytes T data = m at hm hframe
  have hskip : flipBit (wordBytes L ++ (m ++ wordBytes (crc32 m))) (4 + i) k =
      wordBytes L ++ flipBit (m ++ wordBytes (crc32 m)) i k := flipBit_append_right (wordBytes L) _ i k
  rw [hframe, hskip]
  by_cases hi : i < m.length
  · -- a covered byte
    exact ⟨flipBit m i k, crc32 m, by rw [flipBit_append_left hi], by rw [length_flipBit, hm], crc32_flipBit_ne hi k⟩
  · -- a byte of the stored CRC
    obtain ⟨n, rfl⟩ := Nat.exists_eq_add_of_le (not_lt.1 hi)
    have hn : n < (wordBytes (crc32 m)).length := by rw [wordBytes_length]; omega
    have hC : wordBytes (bigEndian (flipBit (wordBytes (crc32 m)) n k)) = flipBit (wordBytes (crc32 m)) n k :=
      wordBytes_bigEndian (length_flipBit ..)
    refine ⟨m, bigEndian (flipBit (wordBytes (crc32 m)) n k), by rw [flipBit_append_right, hC], hm, fun heq => ?_⟩
    exact flipBit_ne hn k (hC.symm.trans (congrArg wordBytes heq))

/-- Settles O50: the frame with the inverted bit keeps the lengths of a frame, so it is parsed to its end, and there the
stored CRC and the computed one differ. -/
theorem singleBitErrorsAreDetected : Obligations.SingleBitErrorsAreDetected := by
  unfold Obligations.SingleBitErrorsAreDetected
  intro L T data j k s hlen ho h4 hj
  obtain ⟨i, rfl⟩ := Nat.exists_eq_add_of_le h4
  obtain ⟨m, C, hflip, hm, hC⟩ := exists_flipBit_frameBytes L T data (i := i) (by omega) k
  rw [hflip]
  exact parseRun_mismatch (hm.trans (by rw [hlen])) hC ho

end Sys2Proof.Machine
end

section
/-! Proofs of the statements of 42_parser.md about the parser's commands: PARSE_BEGIN (R121), PARSE_FEED field by field
and the fields it assembles (R122), completion (R123) and PARSE_END (R125). -/

namespace Sys2Proof.Machine

/-! ### The three commands in each STATE (R121, R122, R125, R168) -/

@[simp] theorem acceptedIn_parseFeed (b : Byte) (o : OpState) : acceptedIn (.parseFeed b) o = true ↔ o = .parse := by
  cases o <;> simp [acceptedIn]

theorem exec_parseBegin_of_idle {s : State} (ho : s.opState = .idle) :
    exec .parseBegin s = .next (parsingAt .len 0#32 0#32 0xFFFFFFFF#32 0x00#8 s) :=
  exec_accepted ((acceptedIn_parseBegin _).2 ho)

theorem exec_parseFeed_of_parse (b : Byte) {s : State} (ho : s.opState = .parse) :
    exec (.parseFeed b) s = .next (setErr .none (parseByte b s)) :=
  exec_accepted ((acceptedIn_parseFeed b _).2 ho)

theorem exec_parseFeed_of_not_parse (b : Byte) {s : State} (ho : s.opState ≠ .parse) :
    exec (.parseFeed b) s = .next (setErr .sequence s) :=
  exec_refused (Bool.eq_false_iff.2 (mt (acceptedIn_parseFeed b _).1 ho))

theorem exec_parseEnd_of_parse {s : State} (ho : s.opState = .parse) :
    exec .parseEnd s = .next { s with result := .truncated, opState := .idle, err := .none } :=
  exec_accepted ((acceptedIn_parseEnd _).2 ho)

/-- Settles O28: PARSE_BEGIN is accepted in IDLE alone, and its word is the only legal one of its OP. -/
theorem parseBeginCommand : Obligations.ParseBeginCommand := by
  unfold Obligations.ParseBeginCommand
  refine ⟨decode_encode .parseBegin, fun s => exec_parseBegin_of_idle, fun s ho => ?refused,
    fun w s hop hw => transact_write_cmd_of_ne_packWord (by decide) hop hw s, fun s ho => ?reads⟩
  case refused => obtain ho | ho := ho <;> exact exec_refused (by rw [ho]; rfl)
  case reads =>
    refine ⟨_, exec_parseBegin_of_idle ho, ?_, rfl⟩
    have hmatch : (parsingAt .len 0#32 0#32 0xFFFFFFFF#32 0x00#8 s).isMatch = true := (isMatch_iff _).2 BitVec.xor_self
    rw [readReg, State.status, hmatch]
    simp [parsingAt, Err.code, Result.code, Field.code, OpState.code]

/-! ### The fields of a frame (R122) -/

/-- A byte shifted in, as the rule writes it. -/
theorem shiftIn_eq_append (v : Word) (b : Byte) : shiftIn v b = (v <<< 8) ||| (0#24 ++ b) :=
  congrArg (v <<< 8 ||| ·) (BitVec.setWidth_eq_append (by decide))

/-- The first four bytes of a parse. -/
theorem transactAll_parseRun_length (l0 l1 l2 l3 : Byte) {s : State} (ho : s.opState = .idle) :
    transactAll (parseRun [l0, l1, l2, l3]) s =
      .next (parsingAt .type (l0 ++ l1 ++ l2 ++ l3) 0#32 Config.crcInit l3 s) := by
  rw [transactAll_parseRun_of_idle _ ho]
  exact feed_len l0 l1 l2 l3 (parsingAt .len 0#32 0#32 Config.crcInit 0#8 s) rfl rfl rfl

/-- The first eight bytes of a parse. -/
theorem transactAll_parseRun_length_type (l0 l1 l2 l3 t0 t1 t2 t3 : Byte) {s : State} (ho : s.opState = .idle) :
    transactAll (parseRun [l0, l1, l2, l3, t0, t1, t2, t3]) s =
      .next (parsingAt (if l0 ++ l1 ++ l2 ++ l3 = 0#32 then .crc else .data) (l0 ++ l1 ++ l2 ++ l3)
        (t0 ++ t1 ++ t2 ++ t3) (crcRaw [t0, t1, t2, t3]) t3 s) := by
  have hlength := transactAll_parseRun_length l0 l1 l2 l3 ho
  exact (transactAll_append_of_next hlength (feedAll [t0, t1, t2, t3])).trans (feed_type t0 t1 t2 t3 _ rfl rfl rfl)

/-- Settles O30: the header bytes, four to a field. -/
theorem parserAssemblesFieldsBigEndian : Obligations.ParserAssemblesFieldsBigEndian := by
  unfold Obligations.ParserAssemblesFieldsBigEndian
  intro s l0 l1 l2 l3 t0 t1 t2 t3 ho
  exact ⟨⟨_, transactAll_parseRun_length l0 l1 l2 l3 ho, rfl, rfl, rfl, rfl⟩,
    ⟨_, transactAll_parseRun_length_type l0 l1 l2 l3 t0 t1 t2 t3 ho, rfl, rfl, rfl, rfl, rfl, rfl, rfl⟩⟩

/-- The word of PARSE_FEED with its operand over its OP, as the rule writes it. -/
theorem decode_parseFeed (b : Byte) : decode (0#16 ++ b ++ 0x04#8) = .ok (.parseFeed b) :=
  (congrArg decode (append_eq_packWord b 4#4)).trans (decode_encode (.parseFeed b))

/-- Settles O29: in PARSE the effect is that of the field's own lemma; four bytes of a field are the runs of
`Laws/Runs.lean`. -/
theorem parseFeedCommand : Obligations.ParseFeedCommand := by
  unfold Obligations.ParseFeedCommand
  refine ⟨decode_parseFeed, fun b s ho hf => ?len, fun b s ho hf => ?type, fun b s ho hf => ?data,
    fun b s ho hf hc => ?crc, fun b s ho hf hc e he => ?crcLast, fun b s ho => ?refused,
    fun w s _ hrsv => reservedBitsOperandsAndOpsAreIllegal w s (hrsv.imp_right .inl),
    fun a b c d s ho hc hf => ?fourBytes, fun s ho => ?sample⟩
  case len => rw [exec_parseFeed_of_parse b ho, parseByte_len hf, shiftIn_eq_append]; rfl
  case type => rw [exec_parseFeed_of_parse b ho, parseByte_type hf, shiftIn_eq_append]; rfl
  case data => rw [exec_parseFeed_of_parse b ho, parseByte_data hf]; rfl
  case crc => rw [exec_parseFeed_of_parse b ho, parseByte_crc hf hc, shiftIn_eq_append]; rfl
  case crcLast => rw [exec_parseFeed_of_parse b ho, parseByte_crc_last hf hc, shiftIn_eq_append, ← he]; rfl
  case refused => exact exec_parseFeed_of_not_parse b (by obtain ho | ho := ho <;> simp [ho])
  case fourBytes =>
    cases hfield : s.field with
    | len => exact ⟨_, feed_len a b c d s ho hfield hc, by simp⟩
    | type => exact ⟨_, feed_type a b c d s ho hfield hc, by simp⟩
    | data => exact absurd hfield hf
    | crc => exact ⟨_, feed_crc a b c d s ho hfield hc, by simp⟩
  case sample => exact ⟨_, transactAll_parseRun_length 0x00#8 0x00#8 0x00#8 0x0D#8 ho, rfl, rfl, rfl⟩

/-! ### Completion (R123) -/

/-- RESULT is OK exactly when the stored CRC is the computed one. -/
theorem verdict_eq_ok_iff (e c : Word) : verdict e c = .ok ↔ e = c ^^^ 0xFFFFFFFF#32 := by
  unfold verdict
  split <;> simp_all [Config.crcXorOut]

/-- The verdict is on CRC32 of the covered bytes (R102, R107). -/
theorem parsedFrame_result (L T : Word) (data : List Byte) (C : Word) (s : State) :
    (parsedFrame L T data C s).result = if C = crc32 (coveredBytes T data) then .ok else .crcMismatch := rfl

/-- The IEND frame with any stored CRC. -/
theorem transactAll_parseRun_iend (C : Word) {s : State} (ho : s.opState = .idle) :
    transactAll (parseRun ([0x00#8, 0x00#8, 0x00#8, 0x00#8, 0x49#8, 0x45#8, 0x4E#8, 0x44#8] ++ wordBytes C)) s =
      .next (parsedFrame 0#32 0x49454E44#32 [] C s) :=
  transactAll_parseRun_frame 0#32 0x49454E44#32 (data := []) rfl C ho

theorem crc32_iend : crc32 (coveredBytes 0x49454E44#32 []) = 0xAE426082#32 := by decide +kernel

/-- Settles O31: the last CRC byte records the verdict and keeps both CRCs, and MATCH compares the same two words. -/
theorem completionGivesTheVerdict : Obligations.CompletionGivesTheVerdict := by
  unfold Obligations.CompletionGivesTheVerdict
  refine ⟨fun b s ho hf hc => ?completes, fun s ho => ?ok, fun s ho => ?mismatch⟩
  case completes =>
    refine ⟨_, exec_parseFeed_of_parse b ho, ?_⟩
    rw [parseByte_crc_last hf hc, ← shiftIn_eq_append, status_bit_match, isMatch_iff]
    exact ⟨rfl, rfl, rfl, rfl, rfl, rfl, rfl, rfl, eq_comm.trans (verdict_eq_ok_iff _ _).symm⟩
  case ok =>
    exact ⟨_, transactAll_parseRun_iend 0xAE426082#32 ho, by rw [parsedFrame_result, crc32_iend]; rfl, rfl, rfl, rfl⟩
  case mismatch =>
    exact ⟨_, transactAll_parseRun_iend 0xAE426083#32 ho, by rw [parsedFrame_result, crc32_iend]; rfl⟩

/-! ### The end of the input (R125) -/

/-- Settles O32: PARSE_END is accepted in PARSE alone, and its word is the only legal one of its OP. -/
theorem parseEndCommand : Obligations.ParseEndCommand := by
  unfold Obligations.ParseEndCommand
  refine ⟨decode_encode .parseEnd, fun s => exec_parseEnd_of_parse, fun s ho => ?refused,
    fun w s hop hw => transact_write_cmd_of_ne_packWord (by decide) hop hw s, fun s ho => ?sample⟩
  case refused => obtain ho | ho := ho <;> exact exec_refused (by rw [ho]; rfl)
  case sample =>
    have hheader := transactAll_parseRun_length_type 0x00#8 0x00#8 0x00#8 0x10#8 0x52#8 0x75#8 0x53#8 0x74#8 ho
    rw [transactAll_append_of_next hheader]
    exact ⟨_, rfl, rfl, rfl, rfl, rfl, rfl⟩

end Sys2Proof.Machine
end

section
/-! Proofs of the statements of 42_parser.md about the registers of a frame: COUNT while it goes on (R124), and what
stays once it has ended (R129). -/

namespace Sys2Proof.Machine

/-! ### COUNT during a frame (R124) -/

/-- The byte at this place is the last of its field. -/
def EndsField (f : Field) (count len : Word) : Prop :=
  (f ≠ .data ∧ count = 3#32) ∨ (f = .data ∧ count = len - 1#32)

theorem nextPosition_count_of_ends {f : Field} {count len : Word} (h : EndsField f count len) :
    (nextPosition f count len).2 = 0#32 := by
  obtain ⟨hf, rfl⟩ | ⟨rfl, rfl⟩ := h
  · cases f with
    | len | type | crc => rfl
    | data => exact absurd rfl hf
  · simp [nextPosition]

theorem nextPosition_count_of_goes_on {f : Field} {count len : Word} (h : ¬ EndsField f count len) :
    (nextPosition f count len).2 = count + 1#32 := by
  cases f with
  | len | type | crc =>
    have hc : count ≠ 3#32 := fun hc => h (.inl ⟨by decide, hc⟩)
    simp [nextPosition, hc]
  | data =>
    have hc : count ≠ len - 1#32 := fun hc => h (.inr ⟨rfl, hc⟩)
    simp [nextPosition, hc]

/-- A PARSE_FEED moves COUNT along the walk of the frame; the LENGTH it assembles in LEN plays no part there. -/
theorem parseByte_count (b : Byte) (s : State) :
    (parseByte b s).count = (nextPosition s.field s.count s.length).2 := by
  cases hf : s.field with
  | len | type | data => simp only [parseByte, hf]; rfl
  | crc =>
    by_cases hlast : s.count = 3#32
    · simp [parseByte_crc_last hf hlast, nextPosition, hlast]
    · simp [parseByte_crc hf hlast, nextPosition, hlast]

/-- A SER_STEP moves COUNT along the same walk. -/
theorem serializeByte_count (d : Byte) (s : State) :
    (serializeByte d s).count = (nextPosition s.field s.count s.length).2 := by
  cases hf : s.field with
  | len | type | data => simp only [serializeByte, hf]; rfl
  | crc =>
    by_cases hlast : s.count = 3#32
    · simp [serializeByte_crc_last hf hlast, nextPosition, hlast]
    · simp [serializeByte_crc hf hlast, nextPosition, hlast]

theorem exec_frame_byte_count {i : Instr} {s t : State}
    (hi : (∃ b, i = .parseFeed b) ∧ s.opState = .parse ∨ (∃ d, i = .serStep d) ∧ s.opState = .ser)
    (h : exec i s = .next t) : t.count = (nextPosition s.field s.count s.length).2 := by
  obtain ⟨⟨b, rfl⟩, ho⟩ | ⟨⟨d, rfl⟩, ho⟩ := hi <;> rw [exec_accepted (by rw [ho]; rfl)] at h <;> cases h
  · exact parseByte_count b s
  · exact serializeByte_count d s

/-- Where COUNT is bounded, one more fits in 32 bits. -/
theorem count_succ_of_bounded {f : Field} {count len : Word} (h : PositionBounded f count len) :
    (count + 1#32).toNat = count.toNat + 1 := by
  cases f <;> simp only [PositionBounded] at h <;> bv_omega

/-- Settles O45: the bounds are those of R42 (b), which leave room for one more; COUNT is back at 0 where the field
ends. -/
theorem countNeverOverflows : Obligations.CountNeverOverflows := by
  unfold Obligations.CountNeverOverflows
  rintro s t i ⟨hcount, -, -⟩ ho hi h
  have hbound : PositionBounded s.field s.count s.length := (countBounded_iff s).1 hcount ho
  have hsucc := count_succ_of_bounded hbound
  rw [exec_frame_byte_count hi h]
  refine ⟨fun hf => ?outside, fun hf => ?data, ?steps⟩
  case outside =>
    cases hfield : s.field with
    | len | type | crc => simp only [hfield, PositionBounded] at hbound; bv_omega
    | data => exact absurd hfield hf
  case data =>
    simp only [hf, PositionBounded] at hbound
    refine ⟨?_, ?_, ?_, ?_⟩ <;> bv_omega
  case steps =>
    by_cases hends : EndsField s.field s.count s.length
    · rw [nextPosition_count_of_ends hends]
      exact ⟨.inr rfl, iff_of_true rfl hends⟩
    · rw [nextPosition_count_of_goes_on hends]
      refine ⟨.inl hsucc, iff_of_false (fun hzero => ?_) hends⟩
      simp [hzero] at hsucc

/-! ### After a frame (R129) -/

/-- In IDLE no command but PARSE_BEGIN reaches LENGTH, TYPE or CRC_EXPECT; CRC_INIT, CRC_FEED and SER_BEGIN reach the
engine, SER_BEGIN alone OUT_BYTE. -/
theorem exec_keeps_registers_of_idle {i : Instr} {s u : State} (ho : s.opState = .idle) (hi : i ≠ .parseBegin)
    (h : exec i s = .next u) :
    u.length = s.length ∧ u.chunkType = s.chunkType ∧ u.crcExpect = s.crcExpect ∧
      (u.crcState ≠ s.crcState → i = .crcInit ∨ i = .serBegin ∨ ∃ b, i = .crcFeed b) ∧
      (u.outByte ≠ s.outByte → i = .serBegin) := by
  obtain ⟨ha, rfl⟩ | ⟨-, rfl⟩ := exec_next h
  case inr => simp -- refused
  case inl =>
    cases i with
    | nop | crcInit | crcFeed b | serBegin => simp [effectOf]
    | parseBegin => exact absurd rfl hi
    | parseFeed b | parseEnd | serStep d => simp [ho, acceptedIn] at ha
    | abort => simp [effectOf, abortFrame, ho]

/-- Settles O41: of the transactions, each write of a configuration register reaches its own one alone, and a command
what it may in IDLE. -/
theorem parsedValuesStay : Obligations.ParsedValuesStay := by
  unfold Obligations.ParsedValuesStay
  intro x s ho hreset hbegin
  obtain ⟨u, hu⟩ := transact_total x s
  refine ⟨u, hu, ?_⟩
  obtain ⟨rfl, -⟩ | ⟨off, -, ht⟩ | ⟨off, w, i, rfl, hr, hd, ht⟩ | ⟨off, w, e, -, -, -, ht⟩ | ⟨off, v, rfl, hr, ht⟩ |
    ⟨off, v, rfl, hr, ht⟩ | ⟨off, v, rfl, hr, ht⟩ | ⟨off, v, -, -, -, -, -, ht⟩ := transact_cases x s
  case inl => exact absurd rfl hreset
  all_goals rw [ht] at hu
  · cases hu; simp -- a Read
  · have hissues := issues_of_decode_ok hr hd -- a legal word to CMD
    obtain ⟨hlength, htype, hexpect, hcrc, hout⟩ :=
      exec_keeps_registers_of_idle ho (fun hi => hbegin (hi ▸ hissues)) hu
    refine ⟨absurd hlength, absurd htype, absurd hexpect, fun hne => ?_, fun hne => hout hne ▸ hissues⟩
    obtain rfl | rfl | ⟨b, rfl⟩ := hcrc hne
    · exact .inl hissues
    · exact .inr (.inl hissues)
    · exact .inr (.inr ⟨b, hissues⟩)
  · cases hu; simp -- an illegal word to CMD
  · rw [acceptIn_of_mem (by simp [ho])] at hu -- LENGTH
    cases hu
    simpa using fun _ => (regAt_eq_length_iff off).1 hr
  · rw [acceptIn_of_mem (by simp [ho])] at hu -- TYPE
    cases hu
    simpa using fun _ => (regAt_eq_chunkType_iff off).1 hr
  · rw [acceptIn_of_mem (by simp [ho])] at hu -- CRC_EXPECT
    cases hu
    simpa using fun _ => (regAt_eq_crcExpect_iff off).1 hr
  · cases hu; simp -- an ignored write

end Sys2Proof.Machine
end

section
/-! Proof of the statement of 42_parser.md that says when a parse ends and with which verdict (R132): a byte string with
the length its first four bytes declare is a frame, and a shorter one can be continued to a frame. -/

namespace Sys2Proof.Machine

/-! ### Bytes after bytes -/

theorem transactAll_parseRun_append {xs : List Byte} {s t : State} (h : transactAll (parseRun xs) s = .next t)
    (ys : List Byte) : transactAll (parseRun (xs ++ ys)) s = transactAll (feedAll ys) t := by
  rw [parseRun, feedAll, List.map_append]
  exact transactAll_append_of_next h _

/-- Outside PARSE no byte is consumed: each reports SEQUENCE (R131). -/
theorem feed_refused {bs : List Byte} (hne : bs ≠ []) {s : State} (ho : s.opState ≠ .parse) :
    transactAll (feedAll bs) s = .next (setErr .sequence s) := by
  induction bs generalizing s with
  | nil => exact absurd rfl hne
  | cons b bs ih =>
    have hfeed := (transact_commandWrite _ s).trans (exec_parseFeed_of_not_parse b ho)
    rw [feedAll, List.map_cons, transactAll_cons_of_next hfeed]
    by_cases hbs : bs = []
    · subst hbs; rfl
    · exact ih hbs (s := setErr .sequence s) ho

/-- An open parse has no verdict and no error. -/
def OpenParseClean (s : State) : Prop := s.opState = .parse → s.result = .none ∧ s.err = .none

theorem openParseClean_feed (bs : List Byte) {s t : State} (hs : OpenParseClean s)
    (h : transactAll (feedAll bs) s = .next t) : OpenParseClean t := by
  induction bs generalizing s with
  | nil => cases h; exact hs
  | cons b bs ih =>
    obtain ⟨u, hu, hbs⟩ := transactAll_cons_next h
    refine ih (fun hparse => ?_) hbs
    rw [transact_commandWrite] at hu
    obtain ⟨ha, rfl⟩ | ⟨ha, rfl⟩ := exec_next hu
    · obtain ⟨-, -, hidle, -⟩ | ⟨-, hresult⟩ := parseByte_ends_or_goes_on b s
      · cases hidle.symm.trans hparse
      · exact ⟨hresult.trans (hs ((acceptedIn_parseFeed b _).1 ha)).1, rfl⟩
    · exact absurd ((acceptedIn_parseFeed b _).2 hparse) (by simp [ha])

theorem openParseClean_parseRun {bs : List Byte} {s t : State} (ho : s.opState = .idle)
    (h : transactAll (parseRun bs) s = .next t) : OpenParseClean t := by
  rw [transactAll_parseRun_of_idle bs ho] at h
  exact openParseClean_feed bs (fun _ => ⟨rfl, rfl⟩) h

/-! ### The length a byte string declares -/

/-- The length of the frame whose first bytes these are: `12 + L`, with `L` its first four bytes (R120). -/
def declaredLength (bs : List Byte) : Nat := 12 + (bigEndian (bs.take 4)).toNat

/-- The byte string has a length field and as many bytes as that declares (R132). -/
def BeginsWithFrame (bs : List Byte) : Prop := 4 ≤ bs.length ∧ declaredLength bs ≤ bs.length

/-- The first four bytes fix the declared length. -/
theorem declaredLength_take {bs : List Byte} {n : Nat} (h : 4 ≤ n) :
    declaredLength (bs.take n) = declaredLength bs := by
  rw [declaredLength, List.take_take, Nat.min_eq_left h, declaredLength]

/-- Cut before its declared length, a byte string does not begin with a frame. -/
theorem not_beginsWithFrame_take {bs : List Byte} {n : Nat} (h : n < declaredLength bs) :
    ¬ BeginsWithFrame (bs.take n) := by
  rintro ⟨h4, hlen⟩
  have hn := List.length_take_le n bs
  rw [declaredLength_take (h4.trans hn)] at hlen
  omega

/-- A byte string that does not begin with a frame can be continued to one; 0 stands for each byte still to come. -/
theorem exists_frame_continuing {bs : List Byte} (h : ¬ BeginsWithFrame bs) :
    ∃ tail, tail ≠ [] ∧ (bs ++ tail).length = declaredLength (bs ++ tail) := by
  have hdecl : ∀ n, 4 ≤ bs.length + n →
      declaredLength (bs ++ List.replicate n 0#8) = declaredLength (bs ++ List.replicate (4 - bs.length) 0#8) := by
    intro n hn
    have hmin : min (4 - bs.length) n = 4 - bs.length := by omega
    simp [declaredLength, List.take_append, hmin]
  have hlong : bs.length < declaredLength (bs ++ List.replicate (4 - bs.length) 0#8) := by
    by_cases h4 : 4 ≤ bs.length
    · have hshort : ¬ declaredLength bs ≤ bs.length := fun hlen => h ⟨h4, hlen⟩
      simpa [Nat.sub_eq_zero_of_le h4] using hshort
    · rw [declaredLength]; omega
  generalize hd : declaredLength (bs ++ List.replicate (4 - bs.length) 0#8) = d at hdecl hlong
  have h12 : 12 ≤ d := by rw [← hd, declaredLength]; omega
  refine ⟨List.replicate (d - bs.length) 0#8, ?_, ?_⟩
  · simp; omega
  · rw [hdecl _ (by omega), List.length_append, List.length_replicate]
    omega

/-! ### The verdict law (R132) -/

/-- The parse of a byte string of the length it declares. -/
theorem transactAll_parseRun_of_length {bs : List Byte} {L : Nat} (hL : (bigEndian (bs.take 4)).toNat = L)
    (hlen : bs.length = 12 + L) {s : State} (ho : s.opState = .idle) :
    ∃ u, transactAll (parseRun bs) s = .next u ∧ u.opState = .idle ∧ u.err = .none ∧
      u.result = if bigEndian (bs.drop (8 + L)) = crc32 ((bs.drop 4).take (4 + L)) then .ok else .crcMismatch := by
  obtain ⟨T, data, hcovered, hdata⟩ := exists_eq_coveredBytes (m := (bs.drop 4).take (4 + L)) (n := L)
    (by simp [hlen]; omega)
  have hsplit : bs = wordBytes (bigEndian (bs.take 4)) ++
      (coveredBytes T data ++ wordBytes (bigEndian (bs.drop (8 + L)))) := by
    have htail : bs.drop (8 + L) = (bs.drop 4).drop (4 + L) := by rw [List.drop_drop]; congr 1; omega
    rw [wordBytes_bigEndian (by simp [hlen]; omega), wordBytes_bigEndian (by simp [hlen]; omega), htail, ← hcovered,
      List.take_append_drop, List.take_append_drop]
  have hrun := transactAll_parseRun_frame (bigEndian (bs.take 4)) T (hdata.trans hL.symm)
    (bigEndian (bs.drop (8 + L))) ho
  rw [← hsplit] at hrun
  rw [hcovered]
  exact ⟨_, hrun, rfl, rfl, rfl⟩

/-- Without a frame the parse stays open: had it ended, it would refuse the bytes that continue the string to a frame,
and a frame is consumed to its last byte without an error. -/
theorem parse_open_of_not_beginsWithFrame {bs : List Byte} (h : ¬ BeginsWithFrame bs) {s t : State}
    (ho : s.opState = .idle) (ht : transactAll (parseRun bs) s = .next t) :
    t.opState = .parse ∧ t.result = .none ∧ t.err = .none := by
  obtain ⟨tail, htail, hlen⟩ := exists_frame_continuing h
  obtain ⟨u, hu, -, herr, -⟩ := transactAll_parseRun_of_length rfl hlen ho
  rw [transactAll_parseRun_append ht] at hu
  have hparse : t.opState = .parse := by
    by_contra hended
    rw [feed_refused htail hended] at hu
    cases hu
    cases herr
  exact ⟨hparse, openParseClean_parseRun ho ht hparse⟩

/-- Settles O51: the first bytes, as many as the length they declare, are a frame and end the parse; fewer leave it
open. -/
theorem verdictLaw : Obligations.VerdictLaw := by
  unfold Obligations.VerdictLaw
  intro bs s ho
  obtain ⟨t, ht⟩ := transactAll_total (parseRun bs) s
  refine ⟨t, ht, ?complete, fun hshort => ?truncated⟩
  case complete =>
    generalize hL : (bigEndian (bs.take 4)).toNat = L
    rintro ⟨h4, hlen⟩
    have hdecl : declaredLength bs = 12 + L := by rw [declaredLength, hL]
    have htake : (bs.take (12 + L)).length = 12 + L := List.length_take_of_le hlen
    obtain ⟨u, hu, hidle, herr, hresult⟩ := transactAll_parseRun_of_length (bs := bs.take (12 + L)) (L := L)
      (by rw [List.take_take, Nat.min_eq_left (by omega), hL]) htake ho
    refine ⟨u, hu, hidle, herr, ?verdict, fun n hn => ?before, fun hall => ?whole, fun hmore => ?after⟩
    case verdict =>
      have hcrc : (bs.take (12 + L)).drop (8 + L) = (bs.drop (8 + L)).take 4 := by
        rw [List.drop_take]; congr 1; omega
      rwa [hcrc, List.drop_take, List.take_take, Nat.min_eq_left (by omega)] at hresult
    case before =>
      obtain ⟨v, hv⟩ := transactAll_total (parseRun (bs.take n)) s
      obtain ⟨hparse, hnone, -⟩ :=
        parse_open_of_not_beginsWithFrame (not_beginsWithFrame_take (hdecl.symm ▸ hn)) ho hv
      exact ⟨v, hv, hparse, hnone⟩
    case whole =>
      rw [← hall, List.take_length, ht] at hu
      cases hu
      rfl
    case after =>
      rw [← List.take_append_drop (12 + L) bs, transactAll_parseRun_append hu,
        feed_refused (by simpa using hmore) (by simp [hidle])] at ht
      cases ht
      rfl
  case truncated =>
    obtain ⟨hparse, -, herr⟩ := parse_open_of_not_beginsWithFrame hshort ho ht
    exact ⟨hparse, herr, (transact_commandWrite .parseEnd t).trans (exec_parseEnd_of_parse hparse)⟩

end Sys2Proof.Machine
end

section
/-! Proofs of the statements of 43_serializer.md: SER_BEGIN (R141), SER_STEP field by field (R142, R144), the bytes a
serialization puts out (R140, R146) and the round trips of serializer and parser (R147). -/

namespace Sys2Proof.Machine

/-! ### The two commands in each STATE (R141, R142, R168) -/

/-- A serialization before the first byte of field `f`, with the CRC register so far, the byte last put out and the words
read so far; LENGTH and TYPE are those it began with (R141). -/
def serializingAt (f : Field) (c : Word) (out : Byte) (words : List Word) (s : State) : State :=
  { s with
    opState := .ser
    field := f
    count := 0#32
    crcState := c
    outByte := out
    result := .none
    err := .none
    reads := words }

theorem exec_serBegin_of_idle {s : State} (ho : s.opState = .idle) :
    exec .serBegin s = .next (serializingAt .len Config.crcInit 0#8 s.reads s) :=
  exec_accepted ((acceptedIn_serBegin _).2 ho)

@[simp] theorem acceptedIn_serStep (d : Byte) (o : OpState) : acceptedIn (.serStep d) o = true ↔ o = .ser := by
  cases o <;> simp [acceptedIn]

theorem exec_serStep_of_ser (d : Byte) {s : State} (ho : s.opState = .ser) :
    exec (.serStep d) s = .next (setErr .none (serializeByte d s)) :=
  exec_accepted ((acceptedIn_serStep d _).2 ho)

theorem exec_serStep_of_not_ser (d : Byte) {s : State} (ho : s.opState ≠ .ser) :
    exec (.serStep d) s = .next (setErr .sequence s) :=
  exec_refused (Bool.eq_false_iff.2 (mt (acceptedIn_serStep d _).1 ho))

/-- Outside DATA the operand is not read (R144). -/
theorem serializeByte_operand_ignored {s : State} (hf : s.field ≠ .data) (d d' : Byte) :
    serializeByte d s = serializeByte d' s := by
  cases hfield : s.field with
  | len => rw [serializeByte_len hfield, serializeByte_len hfield]
  | type => rw [serializeByte_type hfield, serializeByte_type hfield]
  | data => exact absurd hfield hf
  | crc => simp only [serializeByte, hfield]

theorem exec_serStep_operand_ignored {s : State} (hf : s.field ≠ .data) (d d' : Byte) :
    exec (.serStep d) s = exec (.serStep d') s := by
  by_cases ho : s.opState = .ser
  · rw [exec_serStep_of_ser d ho, exec_serStep_of_ser d' ho, serializeByte_operand_ignored hf d d']
  · rw [exec_serStep_of_not_ser d ho, exec_serStep_of_not_ser d' ho]

/-! ### Writes to LENGTH and TYPE (R163, R164) -/

theorem transact_write_length (v : Word) (s : State) :
    transact (.write 0x08#8 v) s = acceptIn [.idle] (fun s => { s with length := v }) s := by
  rw [transact_write, regAt_length]; rfl

theorem transact_write_chunkType (v : Word) (s : State) :
    transact (.write 0x0C#8 v) s = acceptIn [.idle] (fun s => { s with chunkType := v }) s := by
  rw [transact_write, regAt_chunkType]; rfl

/-- A chunk is set up in IDLE: LENGTH and TYPE written, then SER_BEGIN (R204). -/
theorem transactAll_serializeRun_of_idle (L T : Word) (operands : List Byte) {s : State} (ho : s.opState = .idle) :
    transactAll (serializeRun L T operands) s =
      transactAll (commandWrite .serBegin :: stepAll operands) { s with length := L, chunkType := T, err := .none } := by
  have hlength := (transact_write_length L s).trans (acceptIn_of_mem (List.mem_singleton.2 ho))
  have htype := (transact_write_chunkType T _).trans
    (acceptIn_of_mem (s := setErr .none { s with length := L }) (List.mem_singleton.2 ho))
  exact (transactAll_cons_of_next hlength _).trans (transactAll_cons_of_next htype _)

/-! ### The bytes of a serialization (R140, R146) -/

/-- What a serialization leaves: the words read after the frame's bytes, and the engine at the frame's CRC (R143). -/
def serializedFrame (data : List Byte) (s : State) : State :=
  { s with
    opState := .idle
    field := .len
    count := 0#32
    crcState := crcRaw (coveredBytes s.chunkType data)
    outByte := byteOf (crc32 (coveredBytes s.chunkType data)) 3#32
    result := .ok
    err := .none
    reads := s.reads ++ (frameBytes s.length s.chunkType data).map (BitVec.setWidth 32) }

theorem step_length_bytes {ops : List Byte} (hops : ops.length = 4) (c : Word) (out : Byte) (words : List Word)
    (s : State) :
    transactAll (stepAll ops) (serializingAt .len c out words s) =
      .next (serializingAt .type c (byteOf s.length 3#32)
        (words ++ (wordBytes s.length).map (BitVec.setWidth 32)) s) := by
  obtain ⟨a, b, d, e, rfl⟩ := List.length_eq_four.1 hops
  exact step_len a b d e (serializingAt .len c out words s) rfl rfl rfl

theorem step_type_bytes {ops : List Byte} (hops : ops.length = 4) (c : Word) (out : Byte) (words : List Word)
    (s : State) :
    transactAll (stepAll ops) (serializingAt .type c out words s) =
      .next (serializingAt (if s.length = 0#32 then .crc else .data) ((wordBytes s.chunkType).foldl crcByte c)
        (byteOf s.chunkType 3#32) (words ++ (wordBytes s.chunkType).map (BitVec.setWidth 32)) s) := by
  obtain ⟨a, b, d, e, rfl⟩ := List.length_eq_four.1 hops
  exact step_type a b d e (serializingAt .type c out words s) rfl rfl rfl

/-- As many data bytes as LENGTH says, none where DATA is skipped. -/
theorem step_data_bytes {data : List Byte} {s : State} (hlen : data.length = s.length.toNat) (c : Word) (out : Byte)
    (words : List Word) :
    ∃ last, transactAll (stepAll data) (serializingAt (if s.length = 0#32 then .crc else .data) c out words s) =
      .next (serializingAt .crc (data.foldl crcByte c) last (words ++ data.map (BitVec.setWidth 32)) s) := by
  by_cases hL : s.length = 0#32
  · obtain rfl : data = [] := List.length_eq_zero_iff.1 (by simp [hlen, hL])
    exact ⟨out, by rw [if_pos hL, List.map_nil, List.append_nil]; rfl⟩
  · have hne : data ≠ [] := by
      rintro rfl
      exact hL (BitVec.eq_of_toNat_eq hlen.symm)
    rw [if_neg hL]
    exact ⟨_, step_data data (serializingAt .data c out words s) rfl rfl hne (by simpa [serializingAt] using hlen)⟩

theorem step_crc_bytes {ops : List Byte} (hops : ops.length = 4) (c : Word) (out : Byte) (words : List Word)
    (s : State) :
    transactAll (stepAll ops) (serializingAt .crc c out words s) =
      .next { serializingAt .len c (byteOf (c ^^^ Config.crcXorOut) 3#32)
        (words ++ (wordBytes (c ^^^ Config.crcXorOut)).map (BitVec.setWidth 32)) s with
        opState := .idle, result := .ok } := by
  obtain ⟨a, b, d, e, rfl⟩ := List.length_eq_four.1 hops
  exact step_crc a b d e (serializingAt .crc c out words s) rfl rfl rfl

/-- As many operands as the frame has bytes: four for LENGTH, four for TYPE, the data bytes and four for the CRC. -/
theorem exists_operand_split {operands : List Byte} {n : Nat} (h : operands.length = 12 + n) :
    ∃ ls ts cs, ls.length = 4 ∧ ts.length = 4 ∧ ((operands.drop 8).take n).length = n ∧ cs.length = 4 ∧
      operands = ls ++ (ts ++ ((operands.drop 8).take n ++ cs)) := by
  refine ⟨operands.take 4, (operands.drop 4).take 4, (operands.drop 8).drop n, ?_, ?_, ?_, ?_, ?_⟩
  case refine_5 =>
    have hdata : operands.drop 8 = (operands.drop 4).drop 4 := by rw [List.drop_drop]
    rw [List.take_append_drop, hdata, List.take_append_drop, List.take_append_drop]
  all_goals simp [h]; omega

/-- SER_BEGIN and a step for each byte of the frame: the frame is put out and the serialization ends. -/
theorem transactAll_serBegin_steps {operands : List Byte} {s : State} (hlen : operands.length = 12 + s.length.toNat)
    (ho : s.opState = .idle) :
    transactAll (commandWrite .serBegin :: stepAll operands) s =
      .next (serializedFrame ((operands.drop 8).take s.length.toNat) s) := by
  obtain ⟨ls, ts, cs, hls, hts, hdata, hcs, hsplit⟩ := exists_operand_split hlen
  generalize (operands.drop 8).take s.length.toNat = data at hdata hsplit ⊢
  have hbegin := (transact_commandWrite .serBegin s).trans (exec_serBegin_of_idle ho)
  obtain ⟨last, hsteps⟩ := step_data_bytes hdata ((wordBytes s.chunkType).foldl crcByte Config.crcInit)
    (byteOf s.chunkType 3#32) (s.reads ++ (wordBytes s.length).map (BitVec.setWidth 32) ++
      (wordBytes s.chunkType).map (BitVec.setWidth 32))
  rw [transactAll_cons_of_next hbegin, hsplit, step_append _ _ (step_length_bytes hls ..),
    step_append _ _ (step_type_bytes hts ..), step_append _ _ hsteps, step_crc_bytes hcs, ← List.foldl_append]
  simp only [serializedFrame, frameBytes, List.map_append, ← List.append_assoc]
  rfl

/-- The whole run of R204: LENGTH and TYPE written, SER_BEGIN and the steps. -/
theorem transactAll_serializeRun {L T : Word} {operands : List Byte} (hlen : operands.length = 12 + L.toNat)
    {s : State} (ho : s.opState = .idle) :
    transactAll (serializeRun L T operands) s =
      .next (serializedFrame ((operands.drop 8).take L.toNat) { s with length := L, chunkType := T, err := .none }) := by
  rw [transactAll_serializeRun_of_idle L T operands ho]
  exact transactAll_serBegin_steps (s := { s with length := L, chunkType := T, err := .none }) hlen ho

/-- Settles O53: the run of each field puts out that field's bytes, and the words read after them are the frame. -/
theorem serializerPutsOutTheFrame : Obligations.SerializerPutsOutTheFrame := by
  unfold Obligations.SerializerPutsOutTheFrame
  intro L T operands s hlen ho
  exact ⟨_, transactAll_serializeRun hlen ho, rfl, rfl, rfl, rfl, rfl, rfl, rfl, rfl⟩

/-! ### The round trips (R147) -/

@[simp] theorem length_frameBytes (L T : Word) (data : List Byte) :
    (frameBytes L T data).length = 12 + data.length := by
  simp [frameBytes]; omega

/-- A frame with the type and the data together, as the bytes its CRC covers (R107). -/
theorem frameBytes_eq_coveredBytes (L T : Word) (data : List Byte) :
    frameBytes L T data = wordBytes L ++ (coveredBytes T data ++ wordBytes (crc32 (coveredBytes T data))) := by
  simp [frameBytes, coveredBytes]

/-- The data of a frame stand after its length and type. -/
theorem take_drop_frameBytes (L T : Word) {data : List Byte} {n : Nat} (h : data.length = n) :
    ((frameBytes L T data).drop 8).take n = data := by
  subst h
  have hheader : (wordBytes L ++ wordBytes T).length = 8 := rfl
  rw [frameBytes, List.append_assoc (wordBytes L ++ wordBytes T), ← hheader, List.drop_left, List.take_left]

theorem transactAll_parseRun_frameBytes (L T : Word) {data : List Byte} (hlen : data.length = L.toNat) {s : State}
    (ho : s.opState = .idle) :
    transactAll (parseRun (frameBytes L T data)) s = .next (parsedFrame L T data (crc32 (coveredBytes T data)) s) := by
  rw [frameBytes_eq_coveredBytes]
  exact transactAll_parseRun_frame L T hlen _ ho

/-! #### Bytes echoed (R128) -/

@[simp] theorem parseByte_outByte (b : Byte) (s : State) : (parseByte b s).outByte = b := by
  cases hf : s.field with
  | len => rw [parseByte_len hf]
  | type => rw [parseByte_type hf]
  | data => rw [parseByte_data hf]
  | crc =>
    by_cases hlast : s.count = 3#32
    · rw [parseByte_crc_last hf hlast]
    · rw [parseByte_crc hf hlast]

/-- Bytes that leave no error were all consumed, for one that is refused leaves the block outside PARSE and SEQUENCE to
the last; each consumed byte is read back from OUT_BYTE, and the block ends as without the Reads. -/
theorem transactAll_echo_of_feed {bs : List Byte} {s u : State} (h : transactAll (feedAll bs) s = .next u)
    (herr : u.err = .none) (p : List Transaction) (words : List Word) :
    transactAll (bs.flatMap fun b => [commandWrite (.parseFeed b), .read 0x24#8]) (withHost p words s) =
      .next (withHost p (words ++ bs.map (BitVec.setWidth 32)) u) := by
  induction bs generalizing s words with
  | nil => cases h; simp
  | cons b bs ih =>
    have ho : s.opState = .parse := by
      by_contra ho
      rw [feed_refused (List.cons_ne_nil b bs) ho] at h
      cases h
      cases herr
    have hfeed := (transact_commandWrite (.parseFeed b) (withHost p words s)).trans
      (exec_withHost (exec_parseFeed_of_parse b ho))
    have hread : readReg (regAt 0x24#8) (withHost p words (setErr .none (parseByte b s))) = b.setWidth 32 := by
      simp [readReg, withHost]
    rw [feed_cons b bs ho] at h
    rw [List.flatMap_cons, List.cons_append, transactAll_cons_of_next hfeed, List.singleton_append,
      transactAll_cons_of_next (transact_read _ _), hread, List.map_cons, List.append_cons]
    exact ih h (words ++ [b.setWidth 32])

theorem transactAll_parseEchoRun {bs : List Byte} {s u : State} (ho : s.opState = .idle)
    (h : transactAll (parseRun bs) s = .next u) (herr : u.err = .none) :
    transactAll (parseEchoRun bs) s = .next (withHost s.pending (s.reads ++ bs.map (BitVec.setWidth 32)) u) := by
  rw [transactAll_parseRun_of_idle bs ho] at h
  have hbegin := (transact_commandWrite .parseBegin s).trans (exec_parseBegin_of_idle ho)
  exact (transactAll_cons_of_next hbegin _).trans (transactAll_echo_of_feed h herr s.pending s.reads)

/-! #### What a parse that ends with OK has consumed -/

/-- A byte string of the length it declares is a length, the covered bytes and a stored CRC. -/
theorem exists_frame_parts {bs : List Byte} (h : bs.length = declaredLength bs) :
    ∃ L T data C, data.length = L.toNat ∧ bs = wordBytes L ++ (coveredBytes T data ++ wordBytes C) := by
  have h4 : (bs.take 4).length = 4 := by simp [h, declaredLength]; omega
  obtain ⟨L, rest, rfl⟩ : ∃ L rest, bs = wordBytes L ++ rest :=
    ⟨bigEndian (bs.take 4), bs.drop 4, by rw [wordBytes_bigEndian h4, List.take_append_drop]⟩
  have hdecl : declaredLength (wordBytes L ++ rest) = 12 + L.toNat :=
    congrArg (12 + BitVec.toNat ·) (bigEndian_wordBytes L)
  have hrest : rest.length = 4 + L.toNat + 4 := by rw [hdecl, List.length_append, wordBytes_length] at h; omega
  obtain ⟨T, data, hcovered, hdata⟩ := exists_eq_coveredBytes (m := rest.take (4 + L.toNat)) (n := L.toNat)
    (by simp [hrest])
  refine ⟨L, T, data, bigEndian (rest.drop (4 + L.toNat)), hdata, ?_⟩
  rw [← hcovered, wordBytes_bigEndian (by simp [hrest]), List.take_append_drop]

/-- A verdict with no error after it: the parse has consumed the frame and no more (R131, R132). -/
theorem length_eq_declaredLength_of_parse_ended {bs : List Byte} {s t : State} (ho : s.opState = .idle)
    (ht : transactAll (parseRun bs) s = .next t) (hended : t.result ≠ .none) (herr : t.err = .none) :
    bs.length = declaredLength bs := by
  have hframe : BeginsWithFrame bs := by
    by_contra hshort
    exact hended (parse_open_of_not_beginsWithFrame hshort ho ht).2.1
  obtain ⟨t', ht', hcomplete, -⟩ := verdictLaw bs s ho
  cases ht.symm.trans ht'
  obtain ⟨u, -, -, -, -, -, -, hafter⟩ := hcomplete hframe
  refine le_antisymm (not_lt.1 fun hmore => ?_) hframe.2
  cases (congrArg State.err (hafter hmore)).symm.trans herr

/-- A byte string on which the parser ends with OK and no error is a frame. -/
theorem exists_frame_of_parse_ok {bs : List Byte} {s t : State} (ho : s.opState = .idle)
    (ht : transactAll (parseRun bs) s = .next t) (hok : t.result = .ok) (herr : t.err = .none) :
    ∃ L T data C, data.length = L.toNat ∧ bs = frameBytes L T data ∧ t = parsedFrame L T data C s := by
  have hlen := length_eq_declaredLength_of_parse_ended ho ht (by rw [hok]; decide) herr
  obtain ⟨L, T, data, C, hdata, rfl⟩ := exists_frame_parts hlen
  rw [transactAll_parseRun_frame L T hdata C ho] at ht
  cases ht
  have hC : C = crc32 (coveredBytes T data) := (verdict_eq_ok_iff _ _).1 hok
  exact ⟨L, T, data, C, hdata, by rw [frameBytes_eq_coveredBytes, hC], rfl⟩

/-- Settles O54: (a) what is put out is a frame, which parses with OK and is echoed; (b) what parses with OK is a frame,
which is put out again from the registers the parse left. -/
theorem parseAndSerializeRoundTrip : Obligations.ParseAndSerializeRoundTrip := by
  unfold Obligations.ParseAndSerializeRoundTrip
  refine ⟨fun L T operands s hlen ho => ?parsed, fun p s t ho ht hok herr operands hlen hdata => ?serialized⟩
  case parsed =>
    have hser := transactAll_serializeRun (T := T) hlen ho
    have hn : ((operands.drop 8).take L.toNat).length = L.toNat := by simp [hlen]; omega
    generalize (operands.drop 8).take L.toNat = data at hser hn ⊢
    have hecho := transactAll_parseEchoRun rfl (transactAll_parseRun_frameBytes L T hn
      (s := serializedFrame data { s with length := L, chunkType := T, err := .none }) rfl) rfl
    exact ⟨_, frameBytes L T data, _, hser, rfl, take_drop_frameBytes L T hn, hecho, if_pos rfl, rfl, rfl, rfl, rfl,
      rfl, rfl⟩
  case serialized =>
    obtain ⟨L, T, data, C, hn, rfl, rfl⟩ := exists_frame_of_parse_ok ho ht hok herr
    rw [length_frameBytes, hn] at hlen
    rw [length_frameBytes, Nat.add_sub_cancel_left, take_drop_frameBytes L T rfl, hn] at hdata
    refine ⟨_, transactAll_serBegin_steps hlen rfl, ?_, rfl, rfl⟩
    exact congrArg (fun d => s.reads ++ (frameBytes L T d).map (BitVec.setWidth 32)) hdata

/-! ### The two commands (R141, R142) -/

theorem transact_write_length_type_of_ser (v : Word) {s : State} (ho : s.opState = .ser) :
    transact (.write 0x08#8 v) s = .next { s with err := .sequence } ∧
      transact (.write 0x0C#8 v) s = .next { s with err := .sequence } := by
  have hser : s.opState ∉ [OpState.idle] := by simp [ho]
  exact ⟨(transact_write_length v s).trans (acceptIn_of_not_mem hser),
    (transact_write_chunkType v s).trans (acceptIn_of_not_mem hser)⟩

/-- Settles O33: SER_BEGIN is accepted in IDLE alone, and its word is the only legal one of its OP. -/
theorem serBeginCommand : Obligations.SerBeginCommand := by
  unfold Obligations.SerBeginCommand
  refine ⟨decode_encode .serBegin, fun s => exec_serBegin_of_idle, fun s ho => ?refused,
    fun w s hop hw => transact_write_cmd_of_ne_packWord (by decide) hop hw s, ?sample,
    fun v s => transact_write_length_type_of_ser v⟩
  case refused => obtain ho | ho := ho <;> exact exec_refused (by rw [ho]; rfl)
  case sample =>
    have hrun := transactAll_serializeRun_of_idle 0#32 0x49454E44#32 [] (s := State.reset) rfl
    have hbegin := transact_commandWrite .serBegin
      { State.reset with length := 0#32, chunkType := 0x49454E44#32, err := .none }
    rw [exec_serBegin_of_idle rfl] at hbegin
    exact ⟨_, hrun.trans (transactAll_cons_of_next hbegin _), by decide⟩

/-- Settles O34: in SER the effect is that of the field's own lemma, and the example is the frame of a whole run. -/
theorem serStepCommand : Obligations.SerStepCommand := by
  unfold Obligations.SerStepCommand
  refine ⟨fun d => ?decodes, fun d s ho hf => ?len, fun d s ho hf => ?type, fun d s ho hf => ?data,
    fun d s ho hf => ?crc, fun d s ho => ?refused, fun d d' s hf => exec_serStep_operand_ignored hf d d',
    fun w s _ hrsv => reservedBitsOperandsAndOpsAreIllegal w s (hrsv.imp_right .inl), ?bare, fun s ho => ?sample⟩
  case decodes => exact (congrArg decode (append_eq_packWord d 7#4)).trans (decode_encode (.serStep d))
  case len => rw [exec_serStep_of_ser d ho, serializeByte_len hf]; rfl
  case type => rw [exec_serStep_of_ser d ho, serializeByte_type hf]; rfl
  case data => rw [exec_serStep_of_ser d ho, serializeByte_data hf]; rfl
  case crc =>
    rw [exec_serStep_of_ser d ho]
    by_cases hlast : s.count = 3#32
    · rw [serializeByte_crc_last hf hlast]
      simp only [hlast, if_true]
      rfl
    · rw [serializeByte_crc hf hlast]
      simp only [hlast, if_false, ← ho, ← hf]
      rfl
  case refused => exact exec_serStep_of_not_ser d (by obtain ho | ho := ho <;> simp [ho])
  case bare => decide +kernel
  case sample =>
    have hbytes : frameBytes 0#32 0x49454E44#32 [] =
        [0x00#8, 0x00#8, 0x00#8, 0x00#8, 0x49#8, 0x45#8, 0x4E#8, 0x44#8, 0xAE#8, 0x42#8, 0x60#8, 0x82#8] := by
      rw [frameBytes, crc32_iend]; decide
    refine ⟨_, transactAll_serializeRun (operands := List.replicate 12 0x00#8) rfl ho, ?_, rfl, rfl⟩
    exact congrArg (fun bs => s.reads ++ bs.map (BitVec.setWidth 32)) hbytes

end Sys2Proof.Machine
end

section
/-! Proofs of the statements of 44_control.md: in which STATE each command and configuration write is accepted (R168), the
writes and Reads of the registers (R160 to R165), NOP (R166), ABORT (R167), and the command word offered to the next
step. -/

namespace Sys2Proof.Machine

/-! ### Acceptance (R168) -/

theorem OpState.mem_all (o : OpState) : o ∈ [OpState.idle, OpState.parse, OpState.ser] := by
  cases o <;> simp

@[simp] theorem acceptedIn_nop (o : OpState) : acceptedIn .nop o = true := by
  cases o <;> rfl

@[simp] theorem acceptedIn_abort (o : OpState) : acceptedIn .abort o = true := by
  cases o <;> rfl

theorem transact_write_configuration_of_not_idle {off : Offset} (hoff : off = 0x08#8 ∨ off = 0x0C#8 ∨ off = 0x14#8)
    (v : Word) {s : State} (ho : s.opState ≠ .idle) : transact (.write off v) s = .next { s with err := .sequence } := by
  obtain ⟨_, he⟩ := transact_write_configuration hoff v s
  exact he.trans (acceptIn_of_not_mem (mt List.mem_singleton.1 ho))

/-- Settles O21: the written-out table is `acceptedIn` row by row; a command is then accepted or refused by it, and a
configuration write by the one state IDLE. -/
theorem acceptanceTable : Obligations.AcceptanceTable := by
  unfold Obligations.AcceptanceTable
  refine ⟨fun i s => ⟨?table, fun ha => ⟨_, exec_accepted ha, rfl⟩, exec_refused⟩,
    fun off v s hoff => ⟨fun ho => ?configuration, transact_write_configuration_of_not_idle hoff v⟩⟩
  case table =>
    cases i with
    | nop => exact iff_of_true s.opState.mem_all (acceptedIn_nop _)
    | abort => exact iff_of_true s.opState.mem_all (acceptedIn_abort _)
    | crcInit | crcFeed | parseBegin | serBegin => simp -- in IDLE alone
    | parseFeed | parseEnd => simp -- in PARSE alone
    | serStep => simp -- in SER alone
  case configuration =>
    obtain ⟨_, he⟩ := transact_write_configuration hoff v s
    exact ⟨_, he.trans (acceptIn_of_mem (List.mem_singleton.2 ho)), rfl⟩

/-! ### The command word of the next step (R162) -/

/-- A word's number, taken modulo 2^32, gives the word back. -/
theorem ofNat_toNat_mod (w : Word) : BitVec.ofNat 32 (w.toNat % 2 ^ 32) = w := by
  rw [Nat.mod_eq_of_lt w.isLt, BitVec.ofNat_toNat, BitVec.setWidth_eq]

theorem decode_of_decodeTableWord {w : Word} {i : Instr} (h : decodeTableWord 32 w.toNat = some i) :
    decode w = .ok i := by
  rw [decodeTableWord, if_pos (Nat.mod_lt _ (by decide)), ofNat_toNat_mod] at h
  cases hd : decode w with
  | ok j => rw [hd] at h; exact congrArg Except.ok (Option.some.inj h)
  | error e => rw [hd] at h; cases h

theorem withFetchWord_pending (s : State) (w : Word) :
    (s.withFetchWord 32 w.toNat).pending = .write 0x00#8 w :: s.pending := by
  rw [State.withFetchWord, offerCommand, ofNat_toNat_mod]

/-- Settles O8: the offered word is the head of `pending`, and the step that takes it off leaves `s` itself to the
command. -/
theorem withFetchWordRunsItsCommand : Obligations.WithFetchWordRunsItsCommand := by
  unfold Obligations.WithFetchWordRunsItsCommand
  intro s w i h
  exact stepRunsTheDecodedCommand _ 0x00#8 w s.pending i (withFetchWord_pending s w) (by decide)
    (decode_of_decodeTableWord h)

/-! ### Reads (R160) -/

theorem readReg_regAt_of_eq {off o : Offset} {g : Reg} (hoff : off = o) (hg : regAt o = g) (s : State) :
    readReg (regAt off) s = readReg g s := by
  rw [hoff, hg]

/-- Settles O13: the word is the one of the register at the offset, row by row of the table of R36. -/
theorem readReturnsTheRegister : Obligations.ReadReturnsTheRegister := by
  unfold Obligations.ReadReturnsTheRegister
  intro off s
  exact ⟨readReg (regAt off) s, transact_read off s,
    fun h => readReg_regAt_of_eq h regAt_cmd s,
    fun h => readReg_regAt_of_eq h regAt_status s,
    fun h => readReg_regAt_of_eq h regAt_length s,
    fun h => readReg_regAt_of_eq h regAt_chunkType s,
    fun h => readReg_regAt_of_eq h regAt_typeFlags s,
    fun h => readReg_regAt_of_eq h regAt_crcExpect s,
    fun h => readReg_regAt_of_eq h regAt_crcValue s,
    fun h => readReg_regAt_of_eq h regAt_crcRaw s,
    fun h => readReg_regAt_of_eq h regAt_count s,
    fun h => (readReg_regAt_of_eq h regAt_outByte s).trans (BitVec.setWidth_eq_append (by decide)),
    fun h => readReg_regAt_of_eq h regAt_id s,
    fun h => readReg_regAt_of_eq rfl (regAt_reserved h) s⟩

/-! ### Writes (R161, R163 to R165) -/

/-- Settles O19: none of the offsets names one of the four registers whose writes have an effect. -/
theorem ignoredWrites : Obligations.IgnoredWrites := by
  unfold Obligations.IgnoredWrites
  intro off v s h
  have hreg : regAt off ≠ .cmd ∧ regAt off ≠ .length ∧ regAt off ≠ .chunkType ∧ regAt off ≠ .crcExpect := by
    obtain rfl | rfl | rfl | rfl | rfl | rfl | rfl | h := h
    case inr.inr.inr.inr.inr.inr.inr => simp [regAt_reserved h]
    all_goals decide
  obtain ⟨hcmd, hlength, htype, hexpect⟩ := hreg
  exact transact_write_ignored v s hcmd hlength htype hexpect

theorem transact_write_length_of_idle (v : Word) {s : State} (ho : s.opState = .idle) :
    transact (.write 0x08#8 v) s = .next { s with length := v, err := .none } :=
  (transact_write_length v s).trans (acceptIn_of_mem (List.mem_singleton.2 ho))

theorem transact_write_chunkType_of_idle (v : Word) {s : State} (ho : s.opState = .idle) :
    transact (.write 0x0C#8 v) s = .next { s with chunkType := v, err := .none } :=
  (transact_write_chunkType v s).trans (acceptIn_of_mem (List.mem_singleton.2 ho))

/-- A Read right after a transaction returns the register of the state that transaction left (R57). -/
theorem transactAll_then_read {x : Transaction} {s u : State} (h : transact x s = .next u) (off : Offset) :
    transactAll [x, .read off] s = .next (recordRead (readReg (regAt off) u) u) :=
  transactAll_cons_of_next h [.read off]

/-- Settles O20: each write by its own rule in IDLE and by the common refusal elsewhere; the Reads follow the write. -/
theorem configurationWrites : Obligations.ConfigurationWrites := by
  unfold Obligations.ConfigurationWrites
  refine fun v s => ⟨fun ho => ⟨transact_write_length_of_idle v ho, transact_write_chunkType_of_idle v ho,
    transact_write_crcExpect_of_idle v ho⟩, fun ho => ?refused, fun ho => ⟨?length, ?typeFlags⟩, ?sample⟩
  case refused =>
    have hne : s.opState ≠ .idle := by obtain ho | ho := ho <;> simp [ho]
    exact ⟨transact_write_configuration_of_not_idle (.inl rfl) v hne,
      transact_write_configuration_of_not_idle (.inr (.inl rfl)) v hne,
      transact_write_configuration_of_not_idle (.inr (.inr rfl)) v hne⟩
  case length =>
    rw [transactAll_then_read (transact_write_length_of_idle v ho), regAt_length]; rfl
  case typeFlags =>
    rw [transactAll_then_read (transact_write_chunkType_of_idle v ho), regAt_typeFlags]; rfl
  case sample =>
    rw [transactAll_then_read (transact_write_crcExpect_of_idle 1#32 (s := State.reset) rfl), regAt_status]; rfl

/-! ### NOP (R166) -/

/-- Settles O25: NOP is accepted in every STATE, has no effect of its own, and its word is the only legal one of its
OP. -/
theorem nopCommand : Obligations.NopCommand := by
  unfold Obligations.NopCommand
  exact ⟨decode_encode .nop, fun s => exec_accepted (acceptedIn_nop _),
    fun w s hop hw => transact_write_cmd_of_ne_packWord (by decide) hop hw s⟩

/-! ### ABORT (R167) -/

theorem exec_abort (s : State) : exec .abort s = .next (setErr .none (abortFrame s)) :=
  exec_accepted (acceptedIn_abort _)

theorem exec_abort_of_idle {s : State} (ho : s.opState = .idle) : exec .abort s = .next { s with err := .none } := by
  obtain ⟨-, hs⟩ | ⟨hne, -⟩ := abortFrame_cases s
  · rw [exec_abort, hs]; rfl
  · exact absurd ho hne

theorem exec_abort_of_not_idle {s : State} (ho : s.opState ≠ .idle) :
    exec .abort s = .next { s with result := .aborted, opState := .idle, err := .none } := by
  obtain ⟨hidle, -⟩ | ⟨-, hs⟩ := abortFrame_cases s
  · exact absurd hidle ho
  · rw [exec_abort, hs]; rfl

/-- The first byte of a parse (R121, R122). -/
theorem transactAll_parseRun_one (b : Byte) {s : State} (ho : s.opState = .idle) :
    transactAll (parseRun [b]) s =
      .next { parsingAt .len (shiftIn 0#32 b) 0#32 Config.crcInit b s with count := 1#32 } := by
  rw [transactAll_parseRun_of_idle _ ho, feed_cons b [] rfl, parseByte_len rfl]
  rfl

/-- Settles O35: ABORT is accepted in every STATE and ends the frame in progress, if there is one; in the example a parse
is open after its first byte. -/
theorem abortCommand : Obligations.AbortCommand := by
  unfold Obligations.AbortCommand
  refine ⟨decode_encode .abort, fun s ho => exec_abort_of_not_idle ?inFrame, fun s => exec_abort_of_idle,
    fun s ho => ?sample⟩
  case inFrame => obtain ho | ho := ho <;> simp [ho]
  case sample =>
    have habort := transact_commandWrite .abort
      { parsingAt .len (shiftIn 0#32 0x00#8) 0#32 Config.crcInit 0x00#8 s with count := 1#32 }
    rw [exec_abort_of_not_idle (by simp [parsingAt])] at habort
    rw [transactAll_append_of_next (transactAll_parseRun_one 0x00#8 ho)]
    exact ⟨_, transactAll_cons_of_next habort [], rfl, rfl, rfl, rfl⟩

end Sys2Proof.Machine
end

section
/-! Proofs of the statements of 60_exceptions.md: a refused write changes ERR alone (R180), decode is checked before STATE
(R185), and RESULT persists while no error leaves the block stuck (R186). -/

namespace Sys2Proof.Machine

/-! ### A refused write (R180) -/

theorem acceptIn_changes_only_err {states : List OpState} {effect : State → State} {s u : State}
    (h : acceptIn states effect s = .next u) (hne : u.err ≠ .none) : u = { s with err := u.err } := by
  obtain ⟨-, rfl⟩ | ⟨-, rfl⟩ := acceptIn_next h
  · exact absurd rfl hne
  · rfl

theorem exec_changes_only_err {i : Instr} {s u : State} (h : exec i s = .next u) (hne : u.err ≠ .none) :
    u = { s with err := u.err } := by
  obtain ⟨-, rfl⟩ | ⟨-, rfl⟩ := exec_next h
  · exact absurd rfl hne
  · rfl

/-- Settles O23: a command and a configuration write either take effect with ERR = NONE or are refused whole; an illegal
word reaches no command. -/
theorem refusedWritesChangeOnlyErr : Obligations.RefusedWritesChangeOnlyErr := by
  unfold Obligations.RefusedWritesChangeOnlyErr
  rintro x s u ⟨off, v, rfl, -⟩ h hne
  obtain ⟨hreset, -⟩ | ⟨_, hread, -⟩ | ⟨_, _, i, -, -, -, ht⟩ | ⟨_, _, _, -, -, -, ht⟩ | ⟨_, _, -, -, ht⟩ |
    ⟨_, _, -, -, ht⟩ | ⟨_, _, -, -, ht⟩ | ⟨_, _, -, -, -, -, -, ht⟩ := transact_cases (.write off v) s
  · cases hreset
  · cases hread
  all_goals rw [ht] at h
  · exact exec_changes_only_err h hne -- a legal word to CMD
  · cases h; rfl -- an illegal word to CMD
  · exact acceptIn_changes_only_err h hne -- LENGTH
  · exact acceptIn_changes_only_err h hne -- TYPE
  · exact acceptIn_changes_only_err h hne -- CRC_EXPECT
  · cases h; rfl -- an ignored write

/-! ### Decode before STATE (R185) -/

theorem transact_write_cmd_illegal_iff {w : Word} {s t : State} (h : transact (.write 0x00#8 w) s = .next t) :
    t.err = .illegal ↔ ∀ i, decode w ≠ .ok i := by
  constructor
  · intro ht i hd
    obtain ⟨t', h', hne⟩ := transact_write_cmd_not_illegal hd s
    rw [h] at h'
    cases h'
    exact hne ht
  · intro hw
    rw [transact_write_cmd_of_not_decodes (not_exists.2 hw)] at h
    cases h; rfl

theorem exec_parseFeed_result {b : Byte} {s t : State} (h : exec (.parseFeed b) s = .next t) :
    t.result = s.result ∨ t.result = .ok ∨ t.result = .crcMismatch := by
  obtain ⟨-, rfl⟩ | ⟨-, rfl⟩ := exec_next h
  · obtain ⟨-, -, -, hends⟩ | ⟨-, hgoes_on⟩ := parseByte_ends_or_goes_on b s
    · exact .inr hends
    · exact .inl hgoes_on
  · exact .inl rfl -- refused

/-- Settles O24: whether ERR is ILLEGAL is a matter of the word alone, and a refused word changes ERR alone. -/
theorem decodeIsCheckedBeforeState : Obligations.DecodeIsCheckedBeforeState := by
  unfold Obligations.DecodeIsCheckedBeforeState
  refine ⟨fun w s s' => ?word, fun b s => ⟨_, exec_eq _ s, exec_parseFeed_result (exec_eq _ s)⟩⟩
  case word =>
    obtain ⟨t, ht⟩ := transact_total (.write 0x00#8 w) s
    obtain ⟨t', ht'⟩ := transact_total (.write 0x00#8 w) s'
    have hillegal := transact_write_cmd_illegal_iff ht
    refine ⟨t, t', ht, ht', hillegal.trans (transact_write_cmd_illegal_iff ht').symm, hillegal, fun hne => ?_⟩
    rw [refusedWritesChangeOnlyErr _ s t ⟨_, w, rfl, .inl (by decide)⟩ ht hne]

/-! ### RESULT after a frame, and recovery (R186) -/

theorem frameMove_stays_of_idle {x : Transaction} {s u : State} (hmove : FrameMove x s u) (ho : s.opState = .idle)
    (hreset : x ≠ .reset) (hparse : ¬ Issues x .parseBegin) (hser : ¬ Issues x .serBegin) :
    u.result = s.result ∧ u.opState = .idle := by
  cases hmove with
  | stays state result => exact ⟨result, state.trans ho⟩
  | reset hx => exact absurd hx hreset
  | parseBegin hx => exact absurd hx hparse
  | serBegin hx => exact absurd hx hser
  | abort _ before => exact absurd ho before
  | parseEnd _ before | parsed _ before | serialized _ before => simp [ho] at before -- during a frame alone

@[simp] theorem abortFrame_opState (s : State) : (abortFrame s).opState = .idle := by
  obtain ⟨ho, hs⟩ | ⟨-, hs⟩ := abortFrame_cases s <;> rw [hs]
  · exact ho
  · rfl

/-- Settles O39: in IDLE only Reset and the two BEGINs move STATE or RESULT; ABORT is accepted everywhere and leads to
IDLE, where both BEGINs are accepted. -/
theorem resultPersistsAndNothingIsStuck : Obligations.ResultPersistsAndNothingIsStuck := by
  unfold Obligations.ResultPersistsAndNothingIsStuck
  refine ⟨fun x s ho hreset hparse hser => ?persists, fun s => ?nop, fun s => ?recovers⟩
  case persists =>
    obtain ⟨u, hu⟩ := transact_total x s
    exact ⟨u, hu, frameMove_stays_of_idle (transact_frameMove hu) ho hreset hparse hser⟩
  case nop => exact (transact_commandWrite .nop s).trans (exec_accepted (acceptedIn_nop _))
  case recovers =>
    have hidle : (setErr .none (abortFrame s)).opState = .idle := abortFrame_opState s
    refine ⟨_, (transact_commandWrite .abort s).trans (exec_abort s), hidle, rfl, ?parse, ?ser⟩
    case parse => exact ⟨_, (transact_commandWrite .parseBegin _).trans (exec_parseBegin_of_idle hidle), rfl, rfl⟩
    case ser => exact ⟨_, (transact_commandWrite .serBegin _).trans (exec_serBegin_of_idle hidle), rfl, rfl⟩

end Sys2Proof.Machine
end

section
/-! Proofs of the statements of 70_reset_and_hazards.md: what Reset leaves (R200), and the host's protocol for one frame
(R203), which ends at the last byte of a frame with its verdict, or at the end of a shorter source as TRUNCATED. -/

namespace Sys2Proof.Machine

/-! ### The host's loop (R203 (3)) -/

theorem feedWhileParsing_of_not_parse {s : State} (ho : s.opState ≠ .parse) (bs : List Byte) :
    feedWhileParsing bs s = .next (s, bs) := by
  cases bs with
  | nil => rfl
  | cons b bs => rw [feedWhileParsing, if_neg ho]

theorem feedWhileParsing_cons_of_parse {s : State} (ho : s.opState = .parse) (b : Byte) (bs : List Byte) :
    feedWhileParsing (b :: bs) s = feedWhileParsing bs (setErr .none (parseByte b s)) := by
  rw [feedWhileParsing, if_pos ho, transact_commandWrite, exec_parseFeed_of_parse b ho]

/-- Bytes that can be fed with no error at the end are fed by the loop too: had the parse ended before them, they would
have been refused. -/
theorem feedWhileParsing_append {xs : List Byte} {s t : State} (h : transactAll (feedAll xs) s = .next t)
    (herr : t.err = .none) (ys : List Byte) : feedWhileParsing (xs ++ ys) s = feedWhileParsing ys t := by
  induction xs generalizing s with
  | nil => cases h; rfl
  | cons b bs ih =>
    have ho : s.opState = .parse := by
      by_contra hended
      rw [feed_refused (List.cons_ne_nil b bs) hended] at h
      cases h
      cases herr
    rw [feed_cons b bs ho] at h
    rw [List.cons_append, feedWhileParsing_cons_of_parse ho, ih h]

/-! ### The protocol for one frame (R203) -/

section
variable {xs : List Byte} {s t : State}

theorem parseOneFrame_of_idle (ho : s.opState = .idle) (source : List Byte) {u v : State} {rest : List Byte}
    (hfeed : feedWhileParsing source (parsingAt .len 0#32 0#32 Config.crcInit 0#8 s) = .next (u, rest))
    (hend : endIfParsing u = .next v) : parseOneFrame source s = .next (v, rest) := by
  have hbegin : transact (commandWrite .parseBegin) s = .next (parsingAt .len 0#32 0#32 Config.crcInit 0#8 s) :=
    (transact_commandWrite .parseBegin s).trans (exec_parseBegin_of_idle ho)
  simp only [parseOneFrame, hbegin, hfeed, hend]

/-- The parse has ended with `xs`: the rest of the source is left over. -/
theorem parseOneFrame_of_parse_ended (ho : s.opState = .idle) (h : transactAll (parseRun xs) s = .next t)
    (hended : t.opState = .idle) (herr : t.err = .none) (rest : List Byte) :
    parseOneFrame (xs ++ rest) s = .next (t, rest) := by
  have hnot : t.opState ≠ .parse := by simp [hended]
  rw [transactAll_parseRun_of_idle xs ho] at h
  exact parseOneFrame_of_idle ho _
    ((feedWhileParsing_append h herr rest).trans (feedWhileParsing_of_not_parse hnot rest)) (if_neg hnot)

/-- The parse is still open at the end of the source: PARSE_END ends it (R203 (4), R125). -/
theorem parseOneFrame_of_parse_open (ho : s.opState = .idle) (h : transactAll (parseRun xs) s = .next t)
    (hopen : t.opState = .parse) (herr : t.err = .none) :
    parseOneFrame xs s = .next ({ t with result := .truncated, opState := .idle, err := .none }, []) := by
  rw [transactAll_parseRun_of_idle xs ho] at h
  have hfeed := feedWhileParsing_append h herr []
  rw [List.append_nil] at hfeed
  exact parseOneFrame_of_idle ho _ hfeed
    ((if_pos hopen).trans ((transact_commandWrite .parseEnd t).trans (exec_parseEnd_of_parse hopen)))

end

/-- A source that begins with a frame is parsed to that frame's last byte. -/
theorem parseOneFrame_frameBytes {L T : Word} {data : List Byte} (hlen : data.length = L.toNat) {s : State}
    (ho : s.opState = .idle) (tail : List Byte) :
    parseOneFrame (frameBytes L T data ++ tail) s =
      .next (parsedFrame L T data (crc32 (coveredBytes T data)) s, tail) :=
  parseOneFrame_of_parse_ended ho (transactAll_parseRun_frameBytes L T hlen ho) rfl rfl tail

/-- A source as long as it declares is a frame with some stored CRC, and more bytes. -/
theorem exists_frame_parts_of_beginsWithFrame {source : List Byte} (h : BeginsWithFrame source) :
    ∃ L T data C tail, data.length = L.toNat ∧
      source = wordBytes L ++ (coveredBytes T data ++ wordBytes C) ++ tail := by
  obtain ⟨-, hlen⟩ := h
  have hdecl : declaredLength (source.take (declaredLength source)) = declaredLength source :=
    declaredLength_take (by rw [declaredLength]; omega)
  obtain ⟨L, T, data, C, hdata, hparts⟩ := exists_frame_parts ((List.length_take_of_le hlen).trans hdecl.symm)
  exact ⟨L, T, data, C, source.drop (declaredLength source), hdata, by rw [← hparts, List.take_append_drop]⟩

/-- What the protocol comes to on any source: the verdict on the frame the source begins with, or TRUNCATED. -/
theorem parseOneFrame_outcome (source : List Byte) {s : State} (ho : s.opState = .idle) :
    ∃ t rest, parseOneFrame source s = .next (t, rest) ∧ t.opState = .idle ∧ t.err = .none ∧
      (t.result = .ok ∨ t.result = .crcMismatch ∨ t.result = .truncated) ∧
      (t.result = .ok → ∃ (L T : Word) (data tail : List Byte), data.length = L.toNat ∧
        source = frameBytes L T data ++ tail) := by
  by_cases hframe : BeginsWithFrame source
  · obtain ⟨L, T, data, C, tail, hdata, rfl⟩ := exists_frame_parts_of_beginsWithFrame hframe
    have hparse := transactAll_parseRun_frame L T hdata C ho
    refine ⟨_, tail, parseOneFrame_of_parse_ended ho hparse rfl rfl tail, rfl, rfl, ?_⟩
    rw [parsedFrame_result]
    by_cases hC : C = crc32 (coveredBytes T data)
    · subst hC
      exact ⟨.inl (if_pos rfl), fun _ => ⟨L, T, data, tail, hdata, by rw [frameBytes_eq_coveredBytes]⟩⟩
    · simp [hC]
  · obtain ⟨t, ht⟩ := transactAll_total (parseRun source) s
    obtain ⟨hopen, -, herr⟩ := parse_open_of_not_beginsWithFrame hframe ho ht
    exact ⟨_, [], parseOneFrame_of_parse_open ho ht hopen herr, rfl, rfl, .inr (.inr rfl), nofun⟩

/-- Settles O52: an OK comes from a source that begins with a frame, and on such a source the protocol has one outcome,
the parse of that frame. -/
theorem parserAcceptsExactlyFrames : Obligations.ParserAcceptsExactlyFrames := by
  unfold Obligations.ParserAcceptsExactlyFrames
  intro source s ho
  obtain ⟨t, rest, hrun, hidle, herr, hresult, hok⟩ := parseOneFrame_outcome source ho
  refine ⟨t, rest, hrun, hidle, herr, hresult, ⟨hok, ?accepts⟩, ?registers⟩
  case accepts =>
    rintro ⟨L, T, data, tail, hlen, rfl⟩
    cases hrun.symm.trans (parseOneFrame_frameBytes hlen ho tail)
    exact if_pos rfl
  case registers =>
    rintro L T data tail hlen rfl
    cases hrun.symm.trans (parseOneFrame_frameBytes hlen ho tail)
    exact ⟨rfl, rfl, rfl, rfl, rfl⟩

/-! ### Reset (R200) -/

/-- What is read does not depend on the host side, so after Reset it is what it is in the reset state. -/
theorem readReg_resetBlock (g : Reg) (s : State) : readReg g (resetBlock s) = readReg g State.reset :=
  readReg_withHost g s.pending s.reads State.reset

/-- Settles O12: the state after Reset is R41's, with the host side of the state before it. -/
theorem resetSetsEveryField : Obligations.ResetSetsEveryField := by
  unfold Obligations.ResetSetsEveryField
  intro s
  refine ⟨resetBlock s, transact_reset s, rfl, ?status, ?typeFlags, ?crcValue, (isMatch_iff _).2 ?isMatch⟩
  case status | typeFlags | crcValue => rw [readReg_resetBlock]; decide
  case isMatch => simp

end Sys2Proof.Machine
end
